-- ==== Sys2Proof/Word.lean ====
section
/-! DEFINITION. The word types of TPS: the command word, the result word and the sequencer code
(spec 30_encoding.md R60, R64, R65). -/

namespace Sys2Proof

/-- A command word `CMD[63:0]` of the command port (R60). -/
abbrev CmdWord := BitVec 64

/-- A result word `RES[55:0]` of the result port (R64). -/
abbrev ResWord := BitVec 56

/-- A sequencer code, the value of `SEQ` (R13, R65). -/
abbrev SeqCode := BitVec 3

end Sys2Proof
end

