-- ==== Sys2Proof/Syntax.lean ====
section
/-! DEFINITION. The instructions: one constructor for each row of spec/opcode_table.json, what the
foreground fetches, why a word is no instruction, and the turns of the agents. -/

namespace Sys2Proof

/-- The twelve rows of the opcode table: four kinds of command word (R61) and the eight codes of
`SEQ` (R65). -/
inductive Instr where
  /-- RESERVED: `OP = 0b00`, with the other 62 bits of the word (R61, R69). -/
  | reserved (body : BitVec 62)
  /-- SELECT f, `f = freq/256` Hz (R62, R81). -/
  | select (freq : BitVec 32)
  /-- ARM d, t: the divisor itself, and the threshold in 40-bit two's complement (R63, R90). -/
  | arm (divisor : BitVec 16) (thresh : BitVec 40)
  /-- CONFIGURE f, `f = freq/256` Hz (R62, R99). -/
  | configure (freq : BitVec 32)
  /-- IDLE: `SEQ = 0`, no step pending (R65, R72). -/
  | idle
  /-- M1: suppress interrupt delivery (R91). -/
  | m1
  /-- M2: zero control and counter (R92). -/
  | m2
  /-- M3: write the threshold (R93). -/
  | m3
  /-- M4: set the mode bit (R94). -/
  | m4
  /-- M5: set the clock-select bits (R95). -/
  | m5
  /-- M6: set the interrupt enable (R96). -/
  | m6
  /-- M7: resume interrupt delivery (R97). -/
  | m7
deriving DecidableEq, Repr

/-- What the foreground finds where it looks for its next step: a word on the command port, or the
sequencer's code (R60, R65). -/
inductive Fetched where
  /-- A word on the command port. -/
  | command (w : CmdWord)
  /-- No word on the port: the code in `SEQ`. -/
  | sequencer (c : SeqCode)
deriving DecidableEq, Repr

/-- Why a command word with a non-zero `OP` selects no row (R69). -/
inductive DecodeError where
  /-- Format F with `CMD[61:32] != 0`. -/
  | formatFZeroBits
  /-- Format A with `CMD[61:56] != 0`. -/
  | formatAZeroBits
deriving DecidableEq, Repr

/-- Who moves, or what the outside world does. The spec does not say which enabled agent moves next
(20_memory.md R46, 60_exceptions.md R129), so the order stands in State as data. DESIGN CHOICE, safe:
log 2. -/
inductive Machine.Turn where
  /-- The foreground agent: it looks at the command port, else at `SEQ` (R46, R65, R72). -/
  | foreground
  /-- The outside world presents a word on the command port (R60, R72). -/
  | present (w : CmdWord)
  /-- The tick agent: one increment opportunity, the untimed base model (R112). -/
  | tick
  /-- One cycle of the reference clock, the timed refinement (R111). -/
  | cycle
  /-- The interrupt agent takes the interrupt (R126). -/
  | deliver
  /-- The interrupt agent's callback returns (R128). -/
  | ret
  /-- Reset, or power-up (R139, R150). -/
  | reset
deriving DecidableEq, Repr

end Sys2Proof
end

