-- ==== Sys2Proof/Decode.lean ====
section
/-! DEFINITION. The decoder of command words (spec 30_encoding.md R60, R61) and of sequencer codes
(R65), and the encoder from the same tables. -/

namespace Sys2Proof

/-- A row of the opcode table: a fetched value `v` of `width` bits selects it when
`v & mask = pattern` (R61, R65). -/
structure Row where
  width : Nat
  pattern : Nat
  mask : Nat
deriving DecidableEq, Repr

/-- The row of R61 for `OP = 0b00`. -/
def rowReserved : Row := ⟨64, 0x0000000000000000, 0xC000000000000000⟩
/-- The row of R61 for SELECT. -/
def rowSelect : Row := ⟨64, 0x4000000000000000, 0xFFFFFFFF00000000⟩
/-- The row of R61 for ARM. -/
def rowArm : Row := ⟨64, 0x8000000000000000, 0xFF00000000000000⟩
/-- The row of R61 for CONFIGURE. -/
def rowConfigure : Row := ⟨64, 0xC000000000000000, 0xFFFFFFFF00000000⟩
/-- The row of R65 for the code `c`. -/
def rowSeq (c : Nat) : Row := ⟨3, c, 7⟩

/-- The row an instruction belongs to. -/
def rowOf : Instr → Row
  | .reserved _ => rowReserved
  | .select _ => rowSelect
  | .arm _ _ => rowArm
  | .configure _ => rowConfigure
  | .idle => rowSeq 0
  | .m1 => rowSeq 1
  | .m2 => rowSeq 2
  | .m3 => rowSeq 3
  | .m4 => rowSeq 4
  | .m5 => rowSeq 5
  | .m6 => rowSeq 6
  | .m7 => rowSeq 7

/-- Whether a command word selects a row: `w & mask = match` (R61). -/
def Row.selects (r : Row) (w : CmdWord) : Bool :=
  w &&& BitVec.ofNat 64 r.mask == BitVec.ofNat 64 r.pattern

/-- The field `OP`, bits 63:62 (R60). -/
def opField (w : CmdWord) : BitVec 2 := w.extractLsb' 62 2
/-- The field `FREQ` of format F, bits 31:0 (R60). -/
def freqField (w : CmdWord) : BitVec 32 := w.extractLsb' 0 32
/-- The field `DIVISOR` of format A, bits 55:40 (R60). -/
def divisorField (w : CmdWord) : BitVec 16 := w.extractLsb' 40 16
/-- The field `THRESH` of format A, bits 39:0 (R60). -/
def threshField (w : CmdWord) : BitVec 40 := w.extractLsb' 0 40
/-- Bits 61:0, what the reserved row leaves free (R61). -/
def reservedField (w : CmdWord) : BitVec 62 := w.extractLsb' 0 62

/-- The decoder of command words: the row the word selects, with that format's operands (R60, R61);
a word with a non-zero `OP` that selects no row has a non-zero must-be-zero bit (R69). -/
def decodeCommand (w : CmdWord) : Except DecodeError Instr :=
  if rowReserved.selects w then .ok (.reserved (reservedField w))
  else if rowSelect.selects w then .ok (.select (freqField w))
  else if rowArm.selects w then .ok (.arm (divisorField w) (threshField w))
  else if rowConfigure.selects w then .ok (.configure (freqField w))
  else if opField w = 2 then .error .formatAZeroBits
  else .error .formatFZeroBits

/-- The decoder of sequencer codes: "All eight codes are used; none is reserved" (R65). -/
def decodeSeq (c : SeqCode) : Instr :=
  match c.toNat with
  | 0 => .idle
  | 1 => .m1
  | 2 => .m2
  | 3 => .m3
  | 4 => .m4
  | 5 => .m5
  | 6 => .m6
  | _ => .m7

/-- The decoder, total on whatever the foreground fetches. -/
def decode : Fetched → Except DecodeError Instr
  | .command w => decodeCommand w
  | .sequencer c => .ok (decodeSeq c)

/-- A format F word: `OP`, thirty zero bits, `FREQ` (R60). -/
def encodeF (op : BitVec 2) (freq : BitVec 32) : CmdWord := op ++ (0 : BitVec 30) ++ freq

/-- A format A word: `OP`, six zero bits, `DIVISOR`, `THRESH` (R60). -/
def encodeA (op : BitVec 2) (divisor : BitVec 16) (thresh : BitVec 40) : CmdWord :=
  op ++ (0 : BitVec 6) ++ divisor ++ thresh

/-- A reserved word: `OP = 0b00` and the bits the row leaves free (R61). -/
def encodeReserved (body : BitVec 62) : CmdWord := (0 : BitVec 2) ++ body

/-- The encoder: the word or the code that stands for an instruction (R60, R61, R65). -/
def encode : Instr → Fetched
  | .reserved body => .command (encodeReserved body)
  | .select freq => .command (encodeF 1 freq)
  | .arm divisor thresh => .command (encodeA 2 divisor thresh)
  | .configure freq => .command (encodeF 3 freq)
  | .idle => .sequencer 0
  | .m1 => .sequencer 1
  | .m2 => .sequencer 2
  | .m3 => .sequencer 3
  | .m4 => .sequencer 4
  | .m5 => .sequencer 5
  | .m6 => .sequencer 6
  | .m7 => .sequencer 7

/-- What the table's number of bits makes of a word: 64 bits are a command word, the 3 bits of a
sequencer code stand in one byte whose other bits do not exist. A word has no byte order (R41). -/
def fetchedOfTable (nbits w : Nat) : Option Fetched :=
  if nbits = 64 ∧ w < 2 ^ 64 then some (.command (BitVec.ofNat 64 w))
  else if (nbits = 8 ∨ nbits = 3) ∧ w < 8 then some (.sequencer (BitVec.ofNat 3 w))
  else none

/-- The instruction the decoder reads from a word of the opcode table. -/
def decodeTableWord (nbits w : Nat) : Option Instr :=
  match fetchedOfTable nbits w with
  | none => none
  | some f =>
    match decode f with
    | .ok i => some i
    | .error _ => none

end Sys2Proof
end

