-- ==== Sys2Proof/Machine/State.lean ====
section
/-! DEFINITION. The state of TPS as plain data (spec 10_state.md R10), the reasons a step can stop, and
the state after reset (R27). -/

namespace Sys2Proof.Machine

/-- Faults: there is none. "A model has no fault constructor for TPS; the only non-normal outcome of
a step is a refusal" (60_exceptions.md R120). -/
inductive Fault where
deriving DecidableEq, Repr

/-- The refusals. The spec's `refuse(<reason>)`: "the rule gives the operation no meaning, a model
must not let a run continue past it" (00_scope.md, Notation). Each is safe: the run stops. -/
inductive Refusal where
  /-- An instruction without a meaning in this model: raised by an arm of exec, if any. Safe. -/
  | notModelled (mnemonic : String)
  /-- A command word with `OP = 0b00`: raised by RESERVED (R69). Safe. -/
  | reservedOpcode
  /-- A command word with a non-zero must-be-zero bit: raised by the foreground's turn (R69). Safe. -/
  | malformedCommand (e : DecodeError)
  /-- SELECT or CONFIGURE with `FREQ = 0` (R69, R83). Safe. -/
  | zeroFrequency
  /-- A command while `SEQ != 0` (R72). Safe. -/
  | sequenceInProgress
  /-- A command while `ARMED = 1` (R72, R101). Safe. -/
  | alreadyArmed
  /-- A command while `INSVC = 1` (R72, R90). Safe. -/
  | calledFromHandler
  /-- A micro-step, or IDLE, whose code `SEQ` does not hold; no turn of the machine raises it, since
  the foreground decodes `SEQ` (R91 to R97, "enabled exactly when"). Safe: log 14. -/
  | stepNotEnabled
  /-- A tick with `CS != 0` and `CTC = 0`: raised by a tick (R113). Safe. -/
  | tickWithoutClearOnCompare
  /-- A tick or a reference cycle with `CS` = 6 or 7: "a model has no tick rule for them" (R69).
  Safe: log 14. -/
  | reservedClockSelect
deriving DecidableEq, Repr

/-- The six registers of the register space (R25, R44). -/
inductive Reg where
  | ctrl
  | cnt
  | cmp
  | ien
  | iflg
  | gie
deriving DecidableEq, Repr

/-- The state: every row of R10, then the model's own fields. -/
structure State where
  /-- `FREQ = x[0]`, the frequency operand (R11). -/
  freq : BitVec 32
  /-- `DIVR = x[1]`, the chosen divisor (R11). -/
  divr : BitVec 16
  /-- `THR = x[2]`, the untruncated threshold in two's complement (R11). -/
  thr : BitVec 40
  /-- `IDX = x[3]`, the position the search ended at (R11). -/
  idx : BitVec 3
  /-- `SEQ`, the sequencer state, the block's program counter (R13). -/
  seq : SeqCode
  /-- `ARMED` (R14). -/
  armed : Bool
  /-- `CTRL`, the control register (R15, R66). -/
  ctrl : BitVec 8
  /-- `CNT`, the counter (R16). -/
  cnt : BitVec 16
  /-- `CMP`, the comparison register (R17). -/
  cmp : BitVec 16
  /-- `IEN`, the interrupt-enable register (R18, R68). -/
  ien : BitVec 8
  /-- `IFLG`, the interrupt-flag register (R19, R68). -/
  iflg : BitVec 8
  /-- `GIE`, the global interrupt enable (R20). -/
  gie : BitVec 1
  /-- `INSVC`, the callback is running (R21). -/
  insvc : Bool
  /-- `PSC`, the prescaler phase of the timed refinement (R22, R111). -/
  psc : BitVec 10
  /-- MODEL's own: the word presented on the command port and not yet looked at (R60, R72, R150).
  Log 4. -/
  port : Option CmdWord
  /-- MODEL's own: the result port holds a valid result (R64). DEDUCED: log 7. -/
  resValid : Bool
  /-- MODEL's own: the turns to come; when none is left a free round of turns is drawn. Log 2. -/
  schedule : List Turn
  /-- MODEL's own: how many free rounds of turns were drawn, the index of the next one. Log 2. -/
  rounds : Nat
  /-- MODEL's own: how many times free values were drawn, the index of the next draw. Log 8. -/
  draws : Nat
  /-- MODEL's own: how many times the callback was invoked (R126); no step reads it. Log 16. -/
  invocations : Nat
deriving DecidableEq, Repr

/-- The machine right after reset (R27). Unspecified there, so named by the model: the working
registers and `PSC` (zero, DESIGN CHOICE, unsafe: log 10). -/
def State.reset : State where
  freq := 0
  divr := 0
  thr := 0
  idx := 0
  seq := 0
  armed := false
  ctrl := 0
  cnt := 0
  cmp := 0
  ien := 0
  iflg := 0
  gie := 0
  insvc := false
  psc := 0
  port := none
  resValid := false
  schedule := []
  rounds := 0
  draws := 0
  invocations := 0

/-- What one step of this machine answers. -/
abbrev Result := Host.Outcome State Fault Refusal

end Sys2Proof.Machine
end

