-- ==== Sys2Proof/Machine/Flags.lean ====
section
/-! DEFINITION. The fields of the control, enable and flag registers (spec 30_encoding.md R66, R68),
the life-cycle state (10_state.md R14) and the condition of delivery (60_exceptions.md R126). -/

namespace Sys2Proof.Machine

/-- The bits of `CTRL` that exist: `CS` 2:0 and `CTC` 3; bits 7:4 read 0 (R15, R66). -/
def ctrlUsed : BitVec 8 := 0x0F
/-- `CTC_MASK`, `CTRL[3]` (R66). -/
def ctcMask : BitVec 8 := 0x08
/-- `CMIE_MASK`, `IEN[1]`, the one bit of `IEN` that exists (R18, R68). -/
def cmieMask : BitVec 8 := 0x02
/-- The mask of `CMF`, `IFLG[1]`, the one bit of `IFLG` that exists (R19, R68). -/
def cmfMask : BitVec 8 := 0x02

/-- `CTRL.CS`, the clock-select code (R66). -/
def State.cs (s : State) : BitVec 3 := s.ctrl.extractLsb' 0 3
/-- `CTRL.CTC`, the clear-on-compare mode bit (R66). -/
def State.ctc (s : State) : Bool := s.ctrl.getLsbD 3
/-- `IEN.CMIE`, the compare-match interrupt enable (R68). -/
def State.cmie (s : State) : Bool := s.ien.getLsbD 1
/-- `IFLG.CMF`, the compare-match flag (R68). -/
def State.cmf (s : State) : Bool := s.iflg.getLsbD 1

/-- The three life-cycle states of the Programmer (R14). -/
inductive Phase where
  | disarmed
  | configuring
  | armed
deriving DecidableEq, Repr

/-- `PHASE`, derived from `SEQ` and `ARMED` (R14). -/
def State.phase (s : State) : Phase :=
  if 2 ≤ s.seq.toNat then .configuring
  else if s.seq = 0 ∧ s.armed = true then .armed
  else .disarmed

/-- The request `IFLG.CMF & IEN.CMIE` that reaches the processor (R125). -/
def State.request (s : State) : Bool := s.cmf && s.cmie

/-- `DELIVER` is enabled: the request, `GIE = 1` and `INSVC = 0` (R126). -/
def State.deliverable (s : State) : Bool := s.request && s.gie == 1 && !s.insvc

end Sys2Proof.Machine
end

