-- ==== Sys2Proof/Config.lean ====
section
/-! DEFINITION. The parameters of TPS (spec 00_scope.md R5) at the values the spec takes, and the
free values: what the spec calls `unspecified`, as constants nothing can evaluate. -/

namespace Sys2Proof.Config

/-- `F_REF`, the reference clock in Hz (R5). Log 1. -/
def fRef : Nat := 16000000

/-- `2^FF`: the frequency operand counts 1/256 Hz (R5, R62). -/
def fracScale : Nat := 256

/-- `LIMIT = 2^W`, the counter's value space (R5). -/
def limit : Nat := 65536

/-- `DIVS[0]` (R5). The list `DIVS` is this element and `laterDivs`, so it is never empty. Log 1. -/
def firstDiv : BitVec 16 := 1

/-- `DIVS[1..NDIV-1]` (R5). Log 1. -/
def laterDivs : List (BitVec 16) := [8, 64, 256, 1024]

/-- `DIVS`, "an ordered, fixed sequence of allowed divisor values (ascending)" (R5, R23). -/
def divs : List (BitVec 16) := firstDiv :: laterDivs

/-- The `n`-th unspecified value of `FREQ` (R12, R150). DESIGN CHOICE, safe: log 8, log 11. -/
opaque freeFreq : Nat → BitVec 32

/-- The `n`-th unspecified value of `DIVR` (R12, R150). DESIGN CHOICE, safe: log 8, log 11. -/
opaque freeDivr : Nat → BitVec 16

/-- The `n`-th unspecified value of `THR` (R12, R150). DESIGN CHOICE, safe: log 8, log 11. -/
opaque freeThr : Nat → BitVec 40

/-- The `n`-th unspecified value of `IDX` (R12, R150). DESIGN CHOICE, safe: log 8, log 11. -/
opaque freeIdx : Nat → BitVec 3

/-- The `n`-th unspecified prescaler phase, before it is brought into `[0, d)` (R22, R111, R150).
DESIGN CHOICE, safe: log 9, log 11. -/
opaque freePhase : Nat → BitVec 10

/-- The turns taken in the `n`-th free round, before the agents that got none are added: which agent
steps next "is not determined by the state" (R46). DESIGN CHOICE, safe: log 2. -/
opaque freeRound : Nat → List Machine.Turn

end Sys2Proof.Config
end

