-- ==== Sys2Proof/Machine/Operands.lean ====
section
/-! DEFINITION. What operands and register values denote: frequencies and thresholds (spec
30_encoding.md R62, R63), truncation (R93), the table `CSMAP` and its inverse (R67), register
numbers and sizes (20_memory.md R44), the result word (R64). -/

namespace Sys2Proof.Machine

/-- The frequency in Hz that a frequency operand denotes, `f = FREQ / 256` (R62). -/
def freqHz (freq : BitVec 32) : ℚ := (freq.toNat : ℚ) / (Config.fracScale : ℚ)

/-- The integer a 40-bit threshold denotes, `t = sext(THRESH)` (R63). -/
def thresholdOf (thresh : BitVec 40) : Int := thresh.toInt

/-- `trunc_16`, the Euclidean remainder mod `2^16` (00_scope.md section 5, R93). -/
def trunc16 (t : Int) : BitVec 16 := BitVec.ofInt 16 t

/-- `CSMAP`, "an explicit ordered mapping (divisor to bit pattern)" (R67, R95). -/
def csTable : List (BitVec 16 × BitVec 3) := [(1, 1), (8, 2), (64, 3), (256, 4), (1024, 5)]

/-- `CSMAP(d)`: the clock-select code of a divisor, 0 ("no bits set") when it is unmapped (R23, R67). -/
def csmap (d : BitVec 16) : BitVec 3 :=
  match csTable.lookup d with
  | some c => c
  | none => 0

/-- `DIVOF(c)`: the divisor of a mapped clock-select code; none for 0 ("stopped") and for the
reserved codes 6 and 7 (R67). -/
def divOf (c : BitVec 3) : Option Nat :=
  match csTable.find? (fun row => row.2 == c) with
  | some row => some row.1.toNat
  | none => none

/-- The result word: `RES[55:40] = DIVR`, `RES[39:0] = THR` (R64). -/
def resultWord (divr : BitVec 16) (thr : BitVec 40) : ResWord := divr ++ thr

/-- Block-local register numbers (R44). -/
def Reg.number : Reg → Nat
  | .ctrl => 0
  | .cnt => 1
  | .cmp => 2
  | .ien => 3
  | .iflg => 4
  | .gie => 5

/-- Register sizes in bytes (R43, R44). -/
def Reg.size : Reg → Nat
  | .ctrl => 1
  | .cnt => 2
  | .cmp => 2
  | .ien => 1
  | .iflg => 1
  | .gie => 1

/-- The bits of a register that exist, "bits used" (R44). -/
def Reg.used : Reg → Nat
  | .ctrl => 0x0F
  | .cnt => 0xFFFF
  | .cmp => 0xFFFF
  | .ien => 0x02
  | .iflg => 0x02
  | .gie => 0x01

/-- The byte addresses R44 binds a register to on the ATmega328P, low byte first (R41). The binding
"is not used by any rule"; no definition of the model reads it. Log 19. -/
def Reg.chipAddresses : Reg → List Nat
  | .ctrl => [0x81]
  | .cnt => [0x84, 0x85]
  | .cmp => [0x88, 0x89]
  | .ien => [0x6F]
  | .iflg => [0x36]
  | .gie => [0x5F]

end Sys2Proof.Machine
end

