-- ==== Sys2Proof/Machine/Ops.lean ====
section
/-! DEFINITION. The named operations: the register space (spec 20_memory.md R40), the guards of
commands and micro-steps (30_encoding.md R72, 41_programmer.md section 2), taking the interrupt and
returning from it (60_exceptions.md R126, R128), and reset (70_reset_and_hazards.md R150). -/

namespace Sys2Proof.Machine

/-! ### Register access: every access is whole; unused bits read 0 and discard writes (log 13) -/

/-- Reads `CTRL` (R15, R40). -/
def readCtrl (s : State) : BitVec 8 := s.ctrl &&& ctrlUsed
/-- Writes `CTRL` (R15, R40). -/
def writeCtrl (s : State) (v : BitVec 8) : State := { s with ctrl := v &&& ctrlUsed }
/-- Reads `CNT` (R16, R40). -/
def readCnt (s : State) : BitVec 16 := s.cnt
/-- Writes `CNT` (R16, R40). -/
def writeCnt (s : State) (v : BitVec 16) : State := { s with cnt := v }
/-- Reads `CMP` (R17, R40). -/
def readCmp (s : State) : BitVec 16 := s.cmp
/-- Writes `CMP` (R17, R40). -/
def writeCmp (s : State) (v : BitVec 16) : State := { s with cmp := v }
/-- Reads `IEN` (R18, R40). -/
def readIen (s : State) : BitVec 8 := s.ien &&& cmieMask
/-- Writes `IEN` (R18, R40). -/
def writeIen (s : State) (v : BitVec 8) : State := { s with ien := v &&& cmieMask }
/-- Reads `IFLG`; the read clears nothing (R19, R40). -/
def readIflg (s : State) : BitVec 8 := s.iflg &&& cmfMask
/-- Writes `IFLG` (R19, R40). -/
def writeIflg (s : State) (v : BitVec 8) : State := { s with iflg := v &&& cmfMask }
/-- Reads `GIE`, one byte of which bit 0 exists (R20, R43, R44). -/
def readGie (s : State) : BitVec 8 := s.gie.setWidth 8
/-- Writes `GIE` (R20, R43, R44). -/
def writeGie (s : State) (v : BitVec 8) : State := { s with gie := v.setWidth 1 }

/-- `MemRead` of a register, as an unsigned number (R40). -/
def memRead (s : State) : Reg → Nat
  | .ctrl => (readCtrl s).toNat
  | .cnt => (readCnt s).toNat
  | .cmp => (readCmp s).toNat
  | .ien => (readIen s).toNat
  | .iflg => (readIflg s).toNat
  | .gie => (readGie s).toNat

/-- `MemWrite` of a number to a register, truncated to the register's size (R40). -/
def memWrite (s : State) (r : Reg) (v : Nat) : State :=
  match r with
  | .ctrl => writeCtrl s (BitVec.ofNat 8 v)
  | .cnt => writeCnt s (BitVec.ofNat 16 v)
  | .cmp => writeCmp s (BitVec.ofNat 16 v)
  | .ien => writeIen s (BitVec.ofNat 8 v)
  | .iflg => writeIflg s (BitVec.ofNat 8 v)
  | .gie => writeGie s (BitVec.ofNat 8 v)

/-- The result port: the word `RES` while it is valid (R64). -/
def State.result (s : State) : Option ResWord :=
  if s.resValid then some (resultWord s.divr s.thr) else none

/-! ### Guards -/

/-- Why a command is refused in a state, if it is: it is accepted while `SEQ = 0`, `ARMED = 0` and
`INSVC = 0` (R72). Which reason is named when several hold is the model's: log 6. -/
def commandBar (s : State) : Option Refusal :=
  if s.seq ≠ 0 then some .sequenceInProgress
  else if s.armed then some .alreadyArmed
  else if s.insvc then some .calledFromHandler
  else none

/-- Acceptance of a command (R72): `k` if nothing bars it. -/
def accept (s : State) (k : State → State) : Result :=
  match commandBar s with
  | some r => .refused r
  | none => .next (k s)

/-- Acceptance of a format F command: also `FREQ != 0` (R72, R83). -/
def acceptFreq (freq : BitVec 32) (s : State) (k : State → State) : Result :=
  if freq = 0 then .refused .zeroFrequency else accept s k

/-- A foreground step is "enabled exactly when `SEQ` holds its code" (41_programmer.md section 2). -/
def atStep (c : SeqCode) (s : State) (k : State → State) : Result :=
  if s.seq = c then .next (k s) else .refused .stepNotEnabled

/-! ### Free values -/

/-- The working registers take unspecified values (R12, R150). Log 8. -/
def discardWorking (s : State) : State :=
  { s with
    freq := Config.freeFreq s.draws
    divr := Config.freeDivr s.draws
    thr := Config.freeThr s.draws
    idx := Config.freeIdx s.draws
    draws := s.draws + 1 }

/-- `PSC` "takes an `unspecified` value in `[0, d)`" (R111). Log 9. -/
def drawPhase (d : Nat) (s : State) : State :=
  { s with
    psc := BitVec.ofNat 10 ((Config.freePhase s.draws).toNat % d)
    draws := s.draws + 1 }

/-! ### The interrupt: taking it and returning from it -/

/-- `DELIVER`, taking the compare-match interrupt (R126): the flag is cleared, the callback is in
service and is invoked once. Nothing is saved and `GIE` is left as it is. When it is not enabled
nothing happens (log 3). -/
def deliverInterrupt (s : State) : State :=
  if s.deliverable then
    { writeIflg s (readIflg s &&& ~~~cmfMask) with
      insvc := true, invocations := s.invocations + 1 }
  else s

/-- `RETURN`, the callback returns (R128): `INSVC` becomes 0 and nothing else is restored. -/
def returnFromInterrupt (s : State) : State := { s with insvc := false }

/-! ### Reset -/

/-- Reset during a run (R150): every register of R27 at its value there, the working registers and
`PSC` unspecified, the pending command word dropped. The turns to come, the counts of rounds and of
draws and the record of invocations are the model's and go on (log 11). -/
def resetEvent (s : State) : State :=
  { State.reset with
    freq := Config.freeFreq s.draws
    divr := Config.freeDivr s.draws
    thr := Config.freeThr s.draws
    idx := Config.freeIdx s.draws
    psc := Config.freePhase s.draws
    schedule := s.schedule
    rounds := s.rounds
    draws := s.draws + 1
    invocations := s.invocations }

end Sys2Proof.Machine
end

