-- ==== Sys2Proof/Machine/Selector.lean ====
section
/-! DEFINITION. The Divider/Threshold Selector and the instruction SELECT (spec 40_selector.md). -/

namespace Sys2Proof.Machine

/-- The candidate threshold `T(FREQ, d) = ((F_REF * 2^FF) div (FREQ * d)) - 1`, an integer (R80). -/
def candidate (freq : BitVec 32) (d : BitVec 16) : Int :=
  ((Config.fRef * Config.fracScale / (freq.toNat * d.toNat) : Nat) : Int) - 1

/-- The result of a search: position, divisor, untruncated threshold (R81). -/
structure Selection where
  idx : Nat
  divisor : BitVec 16
  threshold : Int
deriving DecidableEq, Repr

/-- The loop of R81 from position `i` at candidate `d` with the candidates `rest` after it: the
first threshold below `LIMIT`, or the last candidate's as it is (R82). -/
def search (freq : BitVec 32) (i : Nat) (d : BitVec 16) (rest : List (BitVec 16)) : Selection :=
  match rest with
  | [] => ⟨i, d, candidate freq d⟩
  | e :: more =>
    if candidate freq d < Config.limit then ⟨i, d, candidate freq d⟩
    else search freq (i + 1) e more

/-- `select`: the search over all of `DIVS` (R81). -/
def selection (freq : BitVec 32) : Selection := search freq 0 Config.firstDiv Config.laterDivs

/-- The writes of `select` to the working registers; the threshold is kept untruncated (R81). -/
def latchSelection (freq : BitVec 32) (s : State) : State :=
  { s with
    freq := freq
    idx := BitVec.ofNat 3 (selection freq).idx
    divr := (selection freq).divisor
    thr := BitVec.ofInt 40 (selection freq).threshold }

/-- SELECT f (R81): one atomic step; the result port is valid from here on (R64). -/
def execSelect (freq : BitVec 32) (s : State) : Result :=
  acceptFreq freq s fun s => { latchSelection freq s with resValid := true }

end Sys2Proof.Machine
end

