-- ==== Sys2Proof/Machine/Programmer.lean ====
section
/-! DEFINITION. The Timer Register Programmer: ARM, CONFIGURE, the micro-steps M1 to M7, IDLE and the
reserved row (spec 41_programmer.md, 30_encoding.md R65, R69). -/

namespace Sys2Proof.Machine

/-- RESERVED (R69): "refused: not accepted, no state change". -/
def execReserved (_body : BitVec 62) (_s : State) : Result := .refused .reservedOpcode

/-- ARM d, t (R90): the operands into `DIVR` and `THR`, and M1 is next. The result port is no longer
valid (R64). -/
def execArm (divisor : BitVec 16) (thresh : BitVec 40) (s : State) : Result :=
  accept s fun s => { s with divr := divisor, thr := thresh, seq := 1, resValid := false }

/-- CONFIGURE f (R99): exactly the selection of R81, and M1 is next. It does not drive the result
port. -/
def execConfigure (freq : BitVec 32) (s : State) : Result :=
  acceptFreq freq s fun s => { latchSelection freq s with seq := 1, resValid := false }

/-- IDLE: `SEQ = 0` and no command, no step is pending (R65, R72); nothing happens. -/
def execIdle (s : State) : Result := atStep 0 s fun s => s

/-- M1 (R91): `GIE <- 0`. -/
def execM1 (s : State) : Result := atStep 1 s fun s => { writeGie s 0 with seq := 2 }

/-- M2 (R92): `CTRL <- 0` and `CNT <- 0`, nothing else. -/
def execM2 (s : State) : Result :=
  atStep 2 s fun s => { writeCnt (writeCtrl s 0) 0 with seq := 3 }

/-- M3 (R93): `CMP <- trunc_16(THR)`. -/
def execM3 (s : State) : Result :=
  atStep 3 s fun s => { writeCmp s (trunc16 (thresholdOf s.thr)) with seq := 4 }

/-- M4 (R94): `CTRL <- CTRL | 0x08`. -/
def execM4 (s : State) : Result :=
  atStep 4 s fun s => { writeCtrl s (readCtrl s ||| ctcMask) with seq := 5 }

/-- The effect of M5 beyond the stored value: when it selects a clock, the counter clock starts, at
an unspecified phase of the prescaler (R95, R110, R111). Log 9. -/
def startClock (c : BitVec 3) (s : State) : State :=
  if c = 0 then s
  else
    match divOf s.cs with
    | some d => drawPhase d s
    | none => s

/-- M5 (R95): `CTRL <- CTRL | zext_8(CSMAP(DIVR))`. -/
def execM5 (s : State) : Result :=
  atStep 5 s fun s =>
    { startClock (csmap s.divr) (writeCtrl s (readCtrl s ||| (csmap s.divr).setWidth 8)) with
      seq := 6 }

/-- M6 (R96): `IEN <- IEN | 0x02`. -/
def execM6 (s : State) : Result :=
  atStep 6 s fun s => { writeIen s (readIen s ||| cmieMask) with seq := 7 }

/-- M7 (R97): `GIE <- 1` unconditionally, `ARMED <- 1`, the sequence is complete, and the working
registers are unspecified (R12). -/
def execM7 (s : State) : Result :=
  atStep 7 s fun s => { discardWorking (writeGie s 1) with armed := true, seq := 0 }

end Sys2Proof.Machine
end

