-- ==== Sys2Proof/Machine/Dispatch.lean ====
section
/-! DEFINITION. exec: one arm for each constructor of Instr, each one direct call of its meaning. -/

namespace Sys2Proof.Machine

def exec (i : Instr) (s : State) : Host.Outcome State Fault Refusal :=
  match i with
  | .reserved body => Sys2Proof.Machine.execReserved body s
  | .select freq => Sys2Proof.Machine.execSelect freq s
  | .arm divisor thresh => Sys2Proof.Machine.execArm divisor thresh s
  | .configure freq => Sys2Proof.Machine.execConfigure freq s
  | .idle => Sys2Proof.Machine.execIdle s
  | .m1 => Sys2Proof.Machine.execM1 s
  | .m2 => Sys2Proof.Machine.execM2 s
  | .m3 => Sys2Proof.Machine.execM3 s
  | .m4 => Sys2Proof.Machine.execM4 s
  | .m5 => Sys2Proof.Machine.execM5 s
  | .m6 => Sys2Proof.Machine.execM6 s
  | .m7 => Sys2Proof.Machine.execM7 s

end Sys2Proof.Machine
end

