-- ==== Sys2Proof/Machine/Timer.lean ====
section
/-! DEFINITION. The running timer: TICK and the reference cycle of the timed refinement (spec
42_timer_counter.md R110 to R113). -/

namespace Sys2Proof.Machine

/-- The writes of TICK (R112): on a match the counter goes to zero and `CMF` is set, else the
counter goes up by one. -/
def tickCounter (s : State) : State :=
  if s.cnt = s.cmp then writeIflg (writeCnt s 0) (readIflg s ||| cmfMask)
  else writeCnt s (s.cnt + 1)

/-- A turn of the tick agent (R112). Not enabled with `CS = 0`: nothing happens (R110, log 3).
Refused with a reserved `CS` (R69) and with `CTC = 0` (R113). -/
def tickTurn (s : State) : Result :=
  if s.cs = 0 then .next s
  else
    match divOf s.cs with
    | none => .refused .reservedClockSelect
    | some _ => if s.ctc then .next (tickCounter s) else .refused .tickWithoutClearOnCompare

/-- One cycle of the reference clock while `CS = c != 0`, `d = DIVOF(c)` (R111): `PSC` goes up by
one, and when it reaches `d` it is set to 0 and one tick occurs. -/
def cycleTurn (s : State) : Result :=
  if s.cs = 0 then .next s
  else
    match divOf s.cs with
    | none => .refused .reservedClockSelect
    | some d =>
      if s.psc.toNat + 1 = d then tickTurn { s with psc := 0 }
      else .next { s with psc := s.psc + 1 }

end Sys2Proof.Machine
end

