-- ==== Sys2Proof/Machine/Turns.lean ====
section
/-! DEFINITION. What each turn does: the foreground's fetch and execution, and the hardware steps
(spec 20_memory.md R46, R47; the union of steps of INDEX.md, How to read it). -/

namespace Sys2Proof.Machine

/-- What the foreground fetches: the word on the command port if one is presented, else the code in
`SEQ` (R65, R72). -/
def fetch (s : State) : Fetched :=
  match s.port with
  | some w => .command w
  | none => .sequencer s.seq

/-- The foreground has looked at the command port: no word is pending (log 4). -/
def clearPort (s : State) : State := { s with port := none }

/-- A turn of the foreground agent: it runs what it fetches; a word that is no instruction is
refused (R69). -/
def foregroundTurn (s : State) : Result :=
  match decode (fetch s) with
  | .ok i => exec i (clearPort s)
  | .error e => .refused (.malformedCommand e)

/-- What a turn does. -/
def runTurn (t : Turn) (s : State) : Result :=
  match t with
  | .foreground => foregroundTurn s
  | .present w => .next { s with port := some w }
  | .tick => tickTurn s
  | .cycle => cycleTurn s
  | .deliver => .next (deliverInterrupt s)
  | .ret => .next (returnFromInterrupt s)
  | .reset => .next (resetEvent s)

/-- A turn for each step an agent has: the foreground's, the tick agent's, and the interrupt agent's
two (R46). -/
def agentTurns : List Turn := [.foreground, .tick, .deliver, .ret]

/-- The agent of a turn gets one among the turns `r`; a reference cycle is a turn of the tick agent
(R111). -/
def serves (r : List Turn) (t : Turn) : Bool :=
  r.contains t || (t == .tick && r.contains .cycle)

/-- A round of turns in which every agent moves: the given ones, then a turn for each agent that got
none. -/
def fairRound (r : List Turn) : List Turn := r ++ agentTurns.filter (fun t => !serves r t)

/-- The turns to come: those of the schedule; when none is left, those of the next free round. Every
free round has a turn of every agent, so "an agent whose step stays enabled eventually takes it": the
weak fairness of R46. DESIGN CHOICE, safe: log 2. -/
def turnsToCome (s : State) : List Turn :=
  match s.schedule with
  | [] => fairRound (Config.freeRound s.rounds)
  | t :: ts => t :: ts

/-- Whose turn it is: the first of the turns to come, of which there is always one. -/
def nextTurn (s : State) : Turn := (turnsToCome s).headD .foreground

/-- The turn is taken off the turns to come. -/
def dropTurn (s : State) : State :=
  { s with
    schedule := (turnsToCome s).tail
    rounds := if s.schedule = [] then s.rounds + 1 else s.rounds }

/-- The next step is the foreground's and fetches the given command word or sequencer code. -/
def placeFetched (s : State) (f : Fetched) : State :=
  match f with
  | .command w => { s with port := some w, schedule := .foreground :: s.schedule }
  | .sequencer c => { s with port := none, seq := c, schedule := .foreground :: s.schedule }

end Sys2Proof.Machine
end

