-- ==== Sys2Proof/Machine/Step.lean ====
section
/-! DEFINITION. One step of the machine: the next of the turns to come (spec 20_memory.md R46). -/

namespace Sys2Proof.Machine

/-- One step: the agent whose turn it is moves. -/
def step (s : State) : Host.Outcome State Fault Refusal := runTurn (nextTurn s) (dropTurn s)

/-- The state with a word of the opcode table where the next step fetches it: a 64-bit word on the
command port, a sequencer code in `SEQ`, and the foreground's turn first. A word that is neither
changes nothing. -/
def State.withFetchWord (s : State) (nbits w : Nat) : State :=
  match fetchedOfTable nbits w with
  | some f => placeFetched s f
  | none => s

end Sys2Proof.Machine
end

