-- ==== Sys2Proof/Safety.lean ====
section
/-! DEFINITION. What the spec promises of every state a run can reach: the invariant of the machine
(spec 10_state.md R14, R15, R18, R19, R22, R26, R28; 20_memory.md R48, R52). -/

namespace Sys2Proof.Machine

/-- A command may be accepted: `SEQ = 0`, `ARMED = 0`, `INSVC = 0` (R72). -/
def Ready (s : State) : Prop := s.seq = 0 ∧ s.armed = false ∧ s.insvc = false

/-- The counter clock runs at `F_REF / d` in the clear-on-compare mode (R110, R112). -/
def RunsAt (s : State) (d : Nat) : Prop := divOf s.cs = some d ∧ s.ctc = true

/-- What holds in every state that a run from reset reaches. -/
structure Consistent (s : State) : Prop where
  /-- "`ARMED = 1` with `SEQ != 0` is unreachable" (R14). -/
  armed_idle : s.armed = true → s.seq = 0
  /-- Before M4 the mode is clear and the counter stopped (R92, R117). -/
  ctrl_zero : s.armed = false → s.seq.toNat ≤ 4 → s.ctrl = 0
  /-- Between M4 and M5 the mode bit is set and the counter stopped (R94). -/
  ctrl_mode : s.seq = 5 → s.ctrl = 0x08
  /-- From M5 on, `CTRL` is `0x08` with a `CSMAP` code, or with no bits set (R95, R103). -/
  ctrl_final : s.armed = true ∨ 6 ≤ s.seq.toNat → s.ctrl ∈ [0x08#8, 0x09, 0x0A, 0x0B, 0x0C, 0x0D]
  /-- Before M5 nothing has counted (R117). -/
  cnt_zero : s.armed = false → s.seq.toNat ≤ 5 → s.cnt = 0
  /-- "from the completion of M3 onward, `CNT <= CMP`" (R28). -/
  cnt_le_cmp : s.armed = true ∨ 4 ≤ s.seq.toNat → s.cnt.toNat ≤ s.cmp.toNat
  /-- `IEN` is zero before M6 (R18). -/
  ien_before : s.armed = false → s.seq ≠ 7 → s.ien = 0
  /-- `CMIE` is set from M6 on (R96). -/
  ien_after : s.armed = true ∨ s.seq = 7 → s.ien = 0x02
  /-- No bit of `IFLG` but `CMF` is ever set (R19). -/
  iflg_bits : s.iflg = 0 ∨ s.iflg = 0x02
  /-- No match before M5 (R117). -/
  iflg_zero : s.armed = false → s.seq.toNat ≤ 5 → s.iflg = 0
  /-- `GIE` is 0 until M7 sets it (R20, R27, R97). -/
  gie_before : s.armed = false → s.gie = 0
  /-- `GIE` is 1 once armed (R97). -/
  gie_after : s.armed = true → s.gie = 1
  /-- The callback runs only once armed (R52). -/
  insvc_armed : s.insvc = true → s.armed = true
  /-- `PSC` is in `[0, d)` while a divisor `d` is selected (R22). -/
  psc_range : ∀ d, divOf s.cs = some d → s.psc.toNat < d
  /-- A valid result is the selection of `FREQ`, shown while no sequence runs and before arming
  (R12, R64). -/
  result_fresh : s.resValid = true →
    s.seq = 0 ∧ s.armed = false ∧ s.freq ≠ 0 ∧ s.divr = (selection s.freq).divisor ∧
      s.thr = BitVec.ofInt 40 (selection s.freq).threshold

end Sys2Proof.Machine
end

