-- ==== Sys2Proof/Certificates/Slice0/Obligations.lean ====
section
/-! DEFINITION. The statements for the provers. Rule numbers are those of spec/; each docstring says
which rule or sentence a statement formalises and which of its clauses are the model's own. -/

open Sys2Proof Sys2Proof.Machine

namespace Sys2Proof.Claims

/-- The candidate threshold of R80 over the integers, with the parameters of R5:
`((F_REF * 2^FF) div (FREQ * d)) - 1`. -/
def threshold (freq : BitVec 32) (d : Nat) : Int := 4096000000 / ((freq.toNat : Int) * (d : Int)) - 1

/-- `DIVS` as R5 lists it. -/
def divisors : List Nat := [1, 8, 64, 256, 1024]

/-- The loop of R81 stops at position `i` with divisor `d`: every earlier candidate is too large, and
this one fits or is the last. -/
def StopsAt (freq : BitVec 32) (i d : Nat) : Prop :=
  divisors[i]? = some d ∧
  (∀ (j e : Nat), j < i → divisors[j]? = some e → 65536 ≤ threshold freq e) ∧
  (threshold freq d < 65536 ∨ i = 4)

/-- `CSMAP` as the table of R67 gives it, 0 for every other divisor. -/
def clockCode (d : BitVec 16) : BitVec 3 :=
  if d = 1 then 1 else if d = 8 then 2 else if d = 64 then 3 else if d = 256 then 4
  else if d = 1024 then 5 else 0

end Sys2Proof.Claims

open Sys2Proof.Claims

/-! ### Encoding and decoding -/

/-- Decode and encode agree, on every instruction with every operand value (R60, R61, R65). -/
def Obligations.DecodeOfEncodeIsTheInstruction : Prop :=
  ∀ i : Instr, decode (encode i) = .ok i

/-- Every word or code that decodes is the encoding of what it decodes to: no two words of the
command port, and no two sequencer codes, mean one instruction (R60, R61, R65). -/
def Obligations.EncodeOfDecodeIsTheWord : Prop :=
  ∀ (f : Fetched) (i : Instr), decode f = .ok i → encode i = f

/-- R61: "A word `w` selects the row whose `w & mask = match`", with the operands of R60's formats;
"A word that selects no row of SELECT, ARM or CONFIGURE is reserved": it decodes to the reserved row
or to no instruction. -/
def Obligations.CommandWordSelectsItsRow : Prop :=
  ∀ w : CmdWord,
    (w &&& 0xFFFFFFFF00000000#64 = 0x4000000000000000#64 →
      decodeCommand w = .ok (.select (w.setWidth 32))) ∧
    (w &&& 0xFF00000000000000#64 = 0x8000000000000000#64 →
      decodeCommand w = .ok (.arm ((w >>> 40).setWidth 16) (w.setWidth 40))) ∧
    (w &&& 0xFFFFFFFF00000000#64 = 0xC000000000000000#64 →
      decodeCommand w = .ok (.configure (w.setWidth 32))) ∧
    (w &&& 0xC000000000000000#64 = 0 → decodeCommand w = .ok (.reserved (w.setWidth 62))) ∧
    (w &&& 0xFFFFFFFF00000000#64 ≠ 0x4000000000000000#64 →
      w &&& 0xFF00000000000000#64 ≠ 0x8000000000000000#64 →
      w &&& 0xFFFFFFFF00000000#64 ≠ 0xC000000000000000#64 →
      w &&& 0xC000000000000000#64 ≠ 0 → ∃ e, decodeCommand w = .error e)

/-- The command words the rules of the spec write out as examples decode to what they stand for
(R81, R90, R99, and the reserved word X1 of 95_test_vectors.md section 2.3). -/
def Obligations.WordsOfTheSpecDecode : Prop :=
  decodeCommand 0x400000000003E800 = .ok (.select 256000) ∧
  decodeCommand 0x8001000000007A11 = .ok (.arm 256 31249) ∧
  decodeCommand 0xC000000000000200 = .ok (.configure 512) ∧
  decodeCommand 0x0000000000000200 = .ok (.reserved 512) ∧
  decodeCommand 0x4000000100000200 = .error .formatFZeroBits ∧
  decodeCommand 0x8101000000007A11 = .error .formatAZeroBits

/-- R65, the table of sequencer codes: "All eight codes are used; none is reserved." -/
def Obligations.SequencerCodesSelectTheirStep : Prop :=
  decode (.sequencer 0b000) = .ok .idle ∧ decode (.sequencer 0b001) = .ok .m1 ∧
  decode (.sequencer 0b010) = .ok .m2 ∧ decode (.sequencer 0b011) = .ok .m3 ∧
  decode (.sequencer 0b100) = .ok .m4 ∧ decode (.sequencer 0b101) = .ok .m5 ∧
  decode (.sequencer 0b110) = .ok .m6 ∧ decode (.sequencer 0b111) = .ok .m7

/-! ### The step -/

/-- When the turn is the foreground's and what it fetches decodes, the step is exec of that
instruction, after the turn is taken off the turns to come and the port is cleared (log 2, log 4: the
turns and the port are the model's; what taking a turn does is `TurnsComeFromTheSchedule`). -/
def Obligations.StepRunsTheDecodedInstruction : Prop :=
  ∀ (s : State) (i : Instr), nextTurn s = .foreground → decode (fetch s) = .ok i →
    step s = exec i { dropTurn s with port := none }

/-- A word of the opcode table placed for the next step is the instruction the next step runs, in
the same state but for the port and, for a sequencer code, `SEQ` (log 5). -/
def Obligations.StepRunsThePlacedWord : Prop :=
  ∀ (nbits w : Nat) (i : Instr) (s : State), decodeTableWord nbits w = some i →
    step (s.withFetchWord nbits w) =
      exec i { s with port := none, seq := if nbits = 64 then s.seq else BitVec.ofNat 3 w }

/-- R72, whole: a word on the port is accepted exactly while `SEQ = 0`, `ARMED = 0` and `INSVC = 0`,
if it matches a non-reserved row and, for format F, `FREQ != 0`; in any other condition it is
refused. -/
def Obligations.CommandAcceptedExactlyWhenReady : Prop :=
  ∀ (s : State) (w : CmdWord), nextTurn s = .foreground → s.port = some w →
    ((∃ t, step s = .next t) ↔
      Ready s ∧
        (w &&& 0xFF00000000000000#64 = 0x8000000000000000#64 ∨
          ((w &&& 0xFFFFFFFF00000000#64 = 0x4000000000000000#64 ∨
              w &&& 0xFFFFFFFF00000000#64 = 0xC000000000000000#64) ∧
            w.setWidth 32 ≠ (0 : BitVec 32)))) ∧
    ((∃ t, step s = .next t) ∨ ∃ r, step s = .refused r)

/-- RESERVED stops in every state, whatever its free bits (R69, first row of the table; the name of
the refusal is the model's, log 6). -/
def Obligations.ReservedRowIsRefused : Prop :=
  ∀ (body : BitVec 62) (s : State), exec (.reserved body) s = .refused .reservedOpcode

/-- R69, its table row by row: the reserved words and the illegal operand are refused; an ARM with an
unmapped divisor executes and M5 sets no bits; an ARM with an out-of-range threshold executes and M3
truncates; `CS` 6 or 7, and `CTC = 0` with `CS != 0`, are in no state of the invariant; with `CS` 6 or 7
no tick happens, and with `CTC = 0` and `CS != 0` a tick is refused (R113); nothing traps. -/
def Obligations.ReservedEncodingsBehave : Prop :=
  (∀ (s : State) (w : CmdWord), nextTurn s = .foreground → s.port = some w →
    (w &&& 0xC000000000000000#64 = 0 ∨
      (w &&& 0x4000000000000000#64 ≠ 0 ∧ w &&& 0x3FFFFFFF00000000#64 ≠ 0) ∨
      (w &&& 0xC000000000000000#64 = 0x8000000000000000#64 ∧
        w &&& 0x3F00000000000000#64 ≠ 0) ∨
      w = 0x4000000000000000#64 ∨ w = 0xC000000000000000#64) →
    ∃ r, step s = .refused r) ∧
  (∀ (s : State) (d : BitVec 16) (t : BitVec 40), Ready s → d.toNat ∉ divisors →
    (∃ s', exec (.arm d t) s = .next s') ∧
    (∀ u : State, u.seq = 5 → u.divr = d →
      ∃ u', exec .m5 u = .next u' ∧ readCtrl u' = readCtrl u)) ∧
  (∀ (s : State) (d : BitVec 16) (t : BitVec 40), Ready s → (t.toInt < 0 ∨ 65535 < t.toInt) →
    (∃ s', exec (.arm d t) s = .next s') ∧
    (∀ u : State, u.seq = 3 → u.thr = t →
      ∃ u', exec .m3 u = .next u' ∧ ((readCmp u').toNat : Int) = t.toInt % 65536)) ∧
  (∀ s : State, nextTurn s = .tick → s.cs = 6 ∨ s.cs = 7 → ∀ t, step s = .next t → t = dropTurn s) ∧
  (∀ s : State, nextTurn s = .tick → s.ctc = false → s.cs ≠ 0 → ∃ r, step s = .refused r) ∧
  (∀ s : State, Consistent s → s.cs ≠ 6 ∧ s.cs ≠ 7 ∧ (s.cs ≠ 0 → s.ctc = true)) ∧
  (∀ (s : State) (f : Fault), step s ≠ .fault f)

/-! ### Agents and interleaving -/

/-- Where turns come from, in the model's terms (log 2): the first of the schedule; when none is left, the
first of a free round, in which each of the three agents has a turn for each of its steps (a reference
cycle counts as the tick agent's, R111). Taking a turn changes nothing else. -/
def Obligations.TurnsComeFromTheSchedule : Prop :=
  (∀ (s : State) (x : Turn) (rest : List Turn), s.schedule = x :: rest →
    nextTurn s = x ∧ dropTurn s = { s with schedule := rest }) ∧
  (∀ s : State, s.schedule = [] → ∃ round : List Turn,
    Turn.foreground ∈ round ∧ (Turn.tick ∈ round ∨ Turn.cycle ∈ round) ∧ Turn.deliver ∈ round ∧
    Turn.ret ∈ round ∧ round = nextTurn s :: (dropTurn s).schedule ∧
    dropTurn s = { s with schedule := round.tail, rounds := s.rounds + 1 })

/-- 20_memory.md section 7, R46: "every interleaving is an execution". Any turn may come next in any
state, and any list of turns, however the agents and the outside world alternate in it, is a run of the
machine, one atomic step after another. The schedule is the model's (log 2). -/
def Obligations.EveryInterleavingIsARun : Prop :=
  (∀ (s : State) (x : Turn) (rest : List Turn),
    step { s with schedule := x :: rest } = runTurn x { s with schedule := rest }) ∧
  (∀ (s t u : State) (xs ys rest : List Turn),
    Host.Core.run Sys2Proof.core xs.length { s with schedule := xs ++ (ys ++ rest) } = .next t →
    Host.Core.run Sys2Proof.core ys.length t = .next u →
    t.schedule = ys ++ rest ∧ u.schedule = rest ∧
    Host.Core.run Sys2Proof.core (xs.length + ys.length) { s with schedule := xs ++ (ys ++ rest) } =
      .next u)

/-- 20_memory.md section 7, R46, weak fairness: from every state, each agent comes to move, unless the run
is refused before; and so again from the state reached, without end: there is no last tick. The bound is
by the turns to come, which are the model's (log 2). -/
def Obligations.EveryAgentMovesAgain : Prop :=
  ∀ (s : State) (x : Turn), x ∈ [Turn.foreground, Turn.tick, Turn.deliver, Turn.ret] →
    ∃ k, k ≤ s.schedule.length + (fairRound (Config.freeRound s.rounds)).length ∧
      ((∃ r, Host.Core.run Sys2Proof.core k s = .refused r) ∨
        ∃ t, Host.Core.run Sys2Proof.core k s = .next t ∧
          (nextTurn t = x ∨ (x = .tick ∧ nextTurn t = .cycle)))

/-- 20_memory.md section 7, R46, and 60_exceptions.md section 5, R131: in the states of the invariant, a
DELIVER that is enabled stays enabled until it is taken, and it is eventually taken, unless a reset or a
refused command ends that first. The second clause holds through the model's free rounds, which are its form
of weak fairness: a DESIGN CHOICE (log 2). -/
def Obligations.EnabledDeliveryIsEventuallyTaken : Prop :=
  (∀ s t : State, Consistent s → s.deliverable = true → step s = .next t →
    (nextTurn s = .deliver ∧ t.invocations = s.invocations + 1) ∨ nextTurn s = .reset ∨
      (t.deliverable = true ∧ t.invocations = s.invocations)) ∧
  (∀ s : State, Consistent s → s.deliverable = true →
    ∃ k, (∃ r, Host.Core.run Sys2Proof.core k s = .refused r) ∨
      ∃ t u, Host.Core.run Sys2Proof.core k s = .next t ∧ step t = .next u ∧
        t.invocations = s.invocations ∧
        ((nextTurn t = .deliver ∧ u.invocations = s.invocations + 1) ∨ nextTurn t = .reset))

/-! ### The Divider/Threshold Selector -/

/-- R80, whole: the rational formula `floor(F_REF / (f * d)) - 1` with `f = FREQ / 256`, its integer
form, `T >= -1`, the widths of the dividend, the divisor and the quotient, and every candidate inside the
40-bit field. -/
def Obligations.CandidateThresholdIsExact : Prop :=
  ∀ (freq : BitVec 32) (d : BitVec 16), freq ≠ 0 → d.toNat ∈ divisors →
    candidate freq d = ⌊(16000000 : ℚ) / (freqHz freq * (d.toNat : ℚ))⌋ - 1 ∧
    candidate freq d = threshold freq d.toNat ∧
    -1 ≤ candidate freq d ∧ Config.fRef * Config.fracScale = 4096000000 ∧
    freq.toNat * d.toNat < 2 ^ 42 ∧ candidate freq d + 1 < 2 ^ 32 ∧
    (BitVec.ofInt 40 (candidate freq d)).toInt = candidate freq d

/-- R81: SELECT stores the position, the divisor and the untruncated threshold at which the search
stops, and nothing else changes but the validity of the result port (R64); in a state in which no
command is accepted it is refused. -/
def Obligations.SelectStoresWhereTheSearchStops : Prop :=
  ∀ (freq : BitVec 32) (s : State), freq ≠ 0 →
    (Ready s → ∃ i d : Nat, StopsAt freq i d ∧
      exec (.select freq) s = .next { s with
        freq := freq, idx := BitVec.ofNat 3 i, divr := BitVec.ofNat 16 d,
        thr := BitVec.ofInt 40 (threshold freq d), resValid := true } ∧
      (BitVec.ofInt 40 (threshold freq d)).toInt = threshold freq d) ∧
    (¬ Ready s → ∃ r, exec (.select freq) s = .refused r)

/-- R82: when no candidate fits, SELECT returns 1024 with its threshold unchanged, a value of at least
65536; with the default parameters that happens exactly when `FREQ <= 61`. -/
def Obligations.SelectExhaustionReturnsTheLast : Prop :=
  ∀ freq : BitVec 32, freq ≠ 0 →
    ((∀ d ∈ divisors, 65536 ≤ threshold freq d) ↔ freq.toNat ≤ 61) ∧
    ((∀ d ∈ divisors, 65536 ≤ threshold freq d) → ∀ s : State, Ready s →
      ∃ t, exec (.select freq) s = .next t ∧ t.divr = 1024 ∧
        t.thr.toInt = threshold freq 1024 ∧ 65536 ≤ t.thr.toInt)

/-- R83: SELECT and CONFIGURE of frequency zero are refused, in every state. -/
def Obligations.ZeroFrequencyIsRefused : Prop :=
  ∀ s : State, (∃ r, exec (.select 0) s = .refused r) ∧ (∃ r, exec (.configure 0) s = .refused r)

/-- R85: where some divisor fits, SELECT returns the smallest such divisor and the threshold computed
by the stated formula. -/
def Obligations.SelectReturnsSmallestFittingDivisor : Prop :=
  ∀ (freq : BitVec 32) (s t : State), freq ≠ 0 → (∃ d ∈ divisors, threshold freq d < 65536) →
    exec (.select freq) s = .next t →
    t.divr.toNat ∈ divisors ∧ threshold freq t.divr.toNat < 65536 ∧
    (∀ d ∈ divisors, threshold freq d < 65536 → t.divr.toNat ≤ d) ∧
    t.thr.toInt = threshold freq t.divr.toNat

/-- 40_selector.md section 3, R86 (its second half is marked `[derived: from rule R80]` there): the
threshold never grows with the frequency nor with the divisor, and the returned divisor never grows
with the frequency. -/
def Obligations.SelectIsMonotone : Prop :=
  ∀ f g : BitVec 32, f ≠ 0 → f.toNat ≤ g.toNat →
    (∀ d : BitVec 16, d.toNat ∈ divisors → candidate g d ≤ candidate f d) ∧
    (∀ d e : BitVec 16, d.toNat ∈ divisors → e.toNat ∈ divisors → d.toNat ≤ e.toNat →
      candidate f e ≤ candidate f d) ∧
    (∀ s u : State, Ready s → Ready u → ∃ s' u', exec (.select f) s = .next s' ∧
      exec (.select g) u = .next u' ∧ u'.divr.toNat ≤ s'.divr.toNat)

/-- R87: SELECT gives the same result whatever the rest of the state, twice is as once, and it writes
no register of the register space. -/
def Obligations.SelectIsPure : Prop :=
  ∀ (freq : BitVec 32) (s t : State), exec (.select freq) s = .next t →
    exec (.select freq) t = .next t ∧
    (∀ r : Reg, memRead t r = memRead s r) ∧
    (∀ u v : State, exec (.select freq) u = .next v →
      v.freq = t.freq ∧ v.divr = t.divr ∧ v.thr = t.thr ∧ v.idx = t.idx ∧ v.result = t.result)

/-- R64: after SELECT the result port shows `DIVR` in bits 55:40 and `THR` in bits 39:0; it stays until
the next command is accepted; ARM and CONFIGURE show nothing. -/
def Obligations.ResultPortShowsTheSelection : Prop :=
  (∀ (freq : BitVec 32) (s t : State), exec (.select freq) s = .next t →
    ∃ res, t.result = some res ∧ res.extractLsb' 40 16 = t.divr ∧ res.extractLsb' 0 40 = t.thr) ∧
  (∀ s t : State, s.port = none ∨ nextTurn s ≠ .foreground → nextTurn s ≠ .reset → s.seq = 0 →
    step s = .next t → t.result = s.result) ∧
  (∀ (freq : BitVec 32) (s t : State), exec (.configure freq) s = .next t → t.result = none) ∧
  (∀ (d : BitVec 16) (th : BitVec 40) (s t : State),
    exec (.arm d th) s = .next t → t.result = none)

/-- 40_selector.md section 3, R89 (marked `[derived: from rule R80 and ... R114]` there): with a
threshold in range, the period `(THR + 1) * d / F_REF` is at most `1/f` and more than
`1/f - d/F_REF`. -/
def Obligations.SelectedPeriodIsWithinOneClock : Prop :=
  ∀ (freq : BitVec 32) (s t : State), freq ≠ 0 → exec (.select freq) s = .next t →
    0 ≤ t.thr.toInt → t.thr.toInt ≤ 65535 →
    ((t.thr.toInt : ℚ) + 1) * (t.divr.toNat : ℚ) / 16000000 ≤ 1 / freqHz freq ∧
    1 / freqHz freq - (t.divr.toNat : ℚ) / 16000000 <
      ((t.thr.toInt : ℚ) + 1) * (t.divr.toNat : ℚ) / 16000000

/-! ### The Timer Register Programmer -/

/-- R90: ARM keeps its operands and makes M1 next; nothing else changes but the result port, which is
no longer valid (R64). Refused while a sequence runs, once armed, and from the handler. -/
def Obligations.ArmStartsTheSequence : Prop :=
  ∀ (d : BitVec 16) (th : BitVec 40) (s : State),
    (Ready s → exec (.arm d th) s =
      .next { s with divr := d, thr := th, seq := 1, resValid := false }) ∧
    (¬ Ready s → ∃ r, exec (.arm d th) s = .refused r)

/-- R99: CONFIGURE stores what SELECT stores and makes M1 next, without driving the result port. -/
def Obligations.ConfigureSelectsThenStarts : Prop :=
  ∀ (freq : BitVec 32) (s : State), freq ≠ 0 →
    (Ready s → ∃ i d : Nat, StopsAt freq i d ∧
      exec (.configure freq) s = .next { s with
        freq := freq, idx := BitVec.ofNat 3 i, divr := BitVec.ofNat 16 d,
        thr := BitVec.ofInt 40 (threshold freq d), seq := 1, resValid := false }) ∧
    (¬ Ready s → ∃ r, exec (.configure freq) s = .refused r)

/-- IDLE, `SEQ = 0` with no command: nothing changes (30_encoding.md section 4, the first row of
R65's table). -/
def Obligations.IdleChangesNothing : Prop :=
  ∀ s : State, s.seq = 0 → exec .idle s = .next s

/-- R91, M1: `GIE <- 0` and `SEQ <- 2`, nothing else; enabled exactly when `SEQ = 1`; `PHASE` becomes
Configuring, and from here until M7, in the states of the invariant, delivery is not enabled. -/
def Obligations.M1SuppressesDelivery : Prop :=
  (∀ s : State,
    (s.seq = 1 → ∃ t, exec .m1 s = .next t ∧ t = { s with gie := 0, seq := 2 } ∧
      t.phase = .configuring ∧ t.deliverable = false) ∧
    (s.seq ≠ 1 → ∀ t, exec .m1 s ≠ .next t)) ∧
  (∀ s : State, Consistent s → 2 ≤ s.seq.toNat → s.phase = .configuring ∧ s.deliverable = false)

/-- R92, M2: `CTRL <- 0x00`, `CNT <- 0x0000`, `SEQ <- 3`, nothing else: `CMP`, `IEN`, `IFLG` and `GIE`
keep their values; enabled exactly when `SEQ = 2`; from here until M5, in the states of the invariant,
the counter clock is stopped. -/
def Obligations.M2ZeroesControlAndCounter : Prop :=
  (∀ s : State,
    (s.seq = 2 → exec .m2 s = .next { s with ctrl := 0, cnt := 0, seq := 3 }) ∧
    (s.seq ≠ 2 → ∀ t, exec .m2 s ≠ .next t)) ∧
  (∀ s : State, Consistent s → 3 ≤ s.seq.toNat → s.seq.toNat ≤ 5 → s.cs = 0)

/-- R93, M3: `CMP` is the Euclidean remainder mod `2^16` of the signed 40-bit threshold, `SEQ <- 4`,
nothing else; exact for `0 <= THR <= 65535`; enabled exactly when `SEQ = 3`. -/
def Obligations.M3WritesTruncatedThreshold : Prop :=
  ∀ s : State,
    (s.seq = 3 → ∃ c : BitVec 16, exec .m3 s = .next { s with cmp := c, seq := 4 } ∧
      (c.toNat : Int) = s.thr.toInt % 65536 ∧
      (0 ≤ s.thr.toInt → s.thr.toInt ≤ 65535 → (c.toNat : Int) = s.thr.toInt)) ∧
    (s.seq ≠ 3 → ∀ t, exec .m3 s ≠ .next t)

/-- R94, M4: `CTRL <- CTRL | 0x08` and `SEQ <- 5`, nothing else; enabled exactly when `SEQ = 4`. Bits
7:4 of `CTRL` do not exist (R15, log 13). -/
def Obligations.M4SetsClearOnCompare : Prop :=
  ∀ s : State,
    (s.seq = 4 → ∃ t, exec .m4 s =
        .next t ∧ t = { s with ctrl := (s.ctrl &&& 0x0F) ||| 0x08, seq := 5 } ∧
        readCtrl t = readCtrl s ||| 0x08 ∧ t.ctc = true ∧ t.cs = s.cs) ∧
    (s.seq ≠ 4 → ∀ t, exec .m4 s ≠ .next t)

/-- R95, M5: the code of `DIVR` is ORed into `CTRL`, `SEQ <- 6`; no bits when the divisor is unmapped.
Nothing else changes but, when a clock is selected, the prescaler phase, which takes an unspecified
value below the divisor (R111; drawn by the model, log 9), and ticks become enabled when the mode bit is
set; enabled exactly when `SEQ = 5`. -/
def Obligations.M5SelectsTheClock : Prop :=
  ∀ s : State,
    (s.seq = 5 → ∃ (p : BitVec 10) (n : Nat) (t : State), exec .m5 s = .next t ∧
      t = { s with
        ctrl := (s.ctrl &&& 0x0F) ||| (clockCode s.divr).setWidth 8,
        psc := p, draws := n, seq := 6 } ∧
      (clockCode s.divr = 0 → p = s.psc ∧ n = s.draws) ∧
      (clockCode s.divr ≠ 0 → s.cs = 0 →
        p.toNat < s.divr.toNat ∧ (s.ctc = true → RunsAt t s.divr.toNat))) ∧
    (s.seq ≠ 5 → ∀ t, exec .m5 s ≠ .next t)

/-- R96, M6: `IEN <- IEN | 0x02` and `SEQ <- 7`, nothing else; enabled exactly when `SEQ = 6`; with
`GIE = 0` delivery is still not enabled. The other bits of `IEN` do not exist (R18, log 13). -/
def Obligations.M6EnablesTheInterrupt : Prop :=
  ∀ s : State,
    (s.seq = 6 → ∃ t, exec .m6 s = .next t ∧ t = { s with ien := 0x02, seq := 7 } ∧
      readIen t = readIen s ||| 0x02 ∧ (s.gie = 0 → t.deliverable = false)) ∧
    (s.seq ≠ 6 → ∀ t, exec .m6 s ≠ .next t)

/-- R97, M7: `GIE <- 1` whatever it was, `ARMED <- 1`, `SEQ <- 0`; the working registers take some
values (R12; log 8: which values is open), nothing else changes; `PHASE` becomes Armed; a pending
enabled match can be delivered at once; enabled exactly when `SEQ = 7`. -/
def Obligations.M7ResumesDelivery : Prop :=
  ∀ s : State,
    (s.seq = 7 → ∃ f d th i n t, exec .m7 s = .next t ∧
      t = { s with gie := 1, armed := true, seq := 0, freq := f, divr := d, thr := th, idx := i,
                   draws := n } ∧
      t.phase = .armed ∧ (s.cmf = true → s.cmie = true → s.insvc = false → t.deliverable = true)) ∧
    (s.seq ≠ 7 → ∀ t, exec .m7 s ≠ .next t)

/-- R98: with no command presented, a foreground step in a sequence is always possible, is the step whose
code is in `SEQ`, and advances `SEQ` by one, to 0 after M7; no other step but reset moves `SEQ`; and in the
states of the invariant neither step of the interrupt agent is enabled between M1 and M7, and none
happens. -/
def Obligations.SequenceAdvancesInOrder : Prop :=
  (∀ s : State, nextTurn s = .foreground → s.port = none → s.seq ≠ 0 →
    ∃ i t, decode (.sequencer s.seq) = .ok i ∧ step s = .next t ∧ t.seq = s.seq + 1 ∧
      exec i { dropTurn s with port := none } = .next t) ∧
  (∀ s t : State, nextTurn s ≠ .foreground → nextTurn s ≠ .reset → step s = .next t →
    t.seq = s.seq) ∧
  (∀ s t : State, Consistent s → 2 ≤ s.seq.toNat → step s = .next t →
    s.deliverable = false ∧ s.insvc = false ∧ t.invocations = s.invocations)

/-- 41_programmer.md section 3, R102 (marked `[derived: from rules R90 to R97]` there): eight
foreground turns take an accepted ARM to its end state, from every state that accepts it, with `IFLG`
as it was. -/
def Obligations.ArmReachesItsEndState : Prop :=
  ∀ (s : State) (d : BitVec 16) (th : BitVec 40) (rest : List Turn), Ready s →
    s.port = some ((2 : BitVec 2) ++ (0 : BitVec 6) ++ d ++ th) →
    s.schedule = List.replicate 8 Turn.foreground ++ rest →
    ∃ t : State, Host.Core.run Sys2Proof.core 8 s = .next t ∧
      readCtrl t = 0x08 ||| (clockCode d).setWidth 8 ∧ readCnt t = 0 ∧
      ((readCmp t).toNat : Int) = th.toInt % 65536 ∧ readIen t = 0x02 ∧
      readIflg t = readIflg s ∧ readGie t = 1 ∧ t.armed = true ∧ t.seq = 0 ∧ t.insvc = false ∧
      t.phase = .armed ∧ t.invocations = s.invocations ∧ t.schedule = rest

/-- 41_programmer.md section 3, R104 (marked `[derived: from rule R93]` there): two ARMs whose
thresholds differ by a multiple of 65536 reach the same register state. -/
def Obligations.ThresholdsEqualMod65536ArmAlike : Prop :=
  ∀ (s : State) (d : BitVec 16) (th th' : BitVec 40) (rest : List Turn), Ready s →
    s.schedule = List.replicate 8 Turn.foreground ++ rest →
    (65536 : Int) ∣ th.toInt - th'.toInt →
    ∃ t t' : State,
      Host.Core.run Sys2Proof.core 8
        { s with port := some ((2 : BitVec 2) ++ (0 : BitVec 6) ++ d ++ th) } = .next t ∧
      Host.Core.run Sys2Proof.core 8
        { s with port := some ((2 : BitVec 2) ++ (0 : BitVec 6) ++ d ++ th') } = .next t' ∧
      ∀ r : Reg, memRead t r = memRead t' r

/-- 41_programmer.md section 3, R103: once armed with no clock selected and nothing pending, the counter
never ticks and no interrupt is ever delivered, in any run without a reset. (Stated from the armed
state on; the end state itself is `ArmReachesItsEndState`.) -/
def Obligations.UnmappedDivisorNeverInterrupts : Prop :=
  ∀ (n : Nat) (s t : State), s.phase = .armed → s.cs = 0 → s.cmf = false →
    (∀ k < n, ∀ u, Host.Core.run Sys2Proof.core k s = .next u → nextTurn u ≠ .reset) →
    Host.Core.run Sys2Proof.core n s = .next t →
    t.cnt = s.cnt ∧ t.cmf = false ∧ t.invocations = s.invocations ∧ t.cs = 0 ∧ t.phase = .armed

/-- R101: while `ARMED = 1` every command presented is refused; the only way out of Armed is reset; after a
SELECT a command can be accepted as before it. -/
def Obligations.SecondCallIsRefused : Prop :=
  (∀ (s : State) (w : CmdWord), s.armed = true → nextTurn s = .foreground → s.port = some w →
    ∃ r, step s = .refused r) ∧
  (∀ s t : State, s.phase = .armed → step s = .next t → t.phase ≠ .armed → nextTurn s = .reset) ∧
  (∀ (freq : BitVec 32) (s t : State), exec (.select freq) s = .next t → Ready t)

/-! ### The running timer -/

/-- R112, TICK with a mapped clock in the clear-on-compare mode: on a match `CNT <- 0` and `CMF <- 1`,
else `CNT <- CNT + 1`; nothing else changes (the turn is taken, log 2). In any other state no
tick happens: the turn changes nothing or is refused. -/
def Obligations.TickCountsOrMatches : Prop :=
  ∀ s : State, nextTurn s = .tick →
    (∀ d, RunsAt s d →
      (s.cnt = s.cmp → step s =
        .next { dropTurn s with cnt := 0, iflg := 0x02 }) ∧
      (s.cnt ≠ s.cmp → step s =
        .next { dropTurn s with cnt := s.cnt + 1 })) ∧
    ((∀ d, ¬ RunsAt s d) → ∀ t, step s = .next t → t = dropTurn s)

/-- 42_timer_counter.md section 1, R110: with `CS = 0` no tick and no reference cycle changes anything.
That such a turn passes is the model's choice (log 3). -/
def Obligations.StoppedCounterKeepsItsValue : Prop :=
  ∀ s : State, s.cs = 0 → (nextTurn s = .tick ∨ nextTurn s = .cycle) →
    step s = .next (dropTurn s)

/-- The model's choice (log 14): a tick, or a reference cycle, with `CS` = 6 or 7 is refused. The spec
says only that "a model has no tick rule for them" (30_encoding.md section 6, R69). -/
def Obligations.ReservedClockSelectIsRefused : Prop :=
  ∀ s : State, nextTurn s = .tick ∨ nextTurn s = .cycle → s.cs = 6 ∨ s.cs = 7 →
    ∃ r, step s = .refused r

/-- R113: a tick with `CS != 0` and `CTC = 0` is refused; no state of the invariant is such. -/
def Obligations.TickWithoutClearOnCompareIsRefused : Prop :=
  (∀ s : State, nextTurn s = .tick → s.cs ≠ 0 → s.ctc = false → ∃ r, step s = .refused r) ∧
  (∀ s : State, Consistent s → s.cs ≠ 0 → s.ctc = true)

/-- 42_timer_counter.md section 1, R111, the timed refinement: from a phase in `[0, d)`, fewer cycles
than reach `d` only advance `PSC`; the cycle that reaches `d` sets `PSC` to 0 and is one tick. -/
def Obligations.TickComesEveryDivisorCycles : Prop :=
  ∀ (s : State) (d n : Nat) (rest : List Turn), RunsAt s d → s.psc.toNat < d →
    s.schedule = List.replicate n Turn.cycle ++ rest →
    (s.psc.toNat + n < d → Host.Core.run Sys2Proof.core n s =
      .next { s with psc := s.psc + BitVec.ofNat 10 n, schedule := rest }) ∧
    (s.psc.toNat + n = d → Host.Core.run Sys2Proof.core n s =
      .next (if s.cnt = s.cmp then { s with psc := 0, cnt := 0, iflg := 0x02, schedule := rest }
        else { s with psc := 0, cnt := s.cnt + 1, schedule := rest }))

/-- 42_timer_counter.md section 3, R114 and R115 (marked `[derived: ...]` there): from `CNT <= CMP`,
the ticks before the match only count, and the match is the `(CMP - CNT + 1)`-th tick; from `CNT = 0`
that is one match every `CMP + 1` ticks. -/
def Obligations.MatchComesEveryPeriod : Prop :=
  ∀ (s : State) (d n : Nat) (rest : List Turn), RunsAt s d → s.cnt.toNat ≤ s.cmp.toNat →
    s.schedule = List.replicate n Turn.tick ++ rest →
    (s.cnt.toNat + n ≤ s.cmp.toNat → Host.Core.run Sys2Proof.core n s =
      .next { s with cnt := s.cnt + BitVec.ofNat 16 n, schedule := rest }) ∧
    (s.cnt.toNat + n = s.cmp.toNat + 1 → Host.Core.run Sys2Proof.core n s =
      .next { s with cnt := 0, iflg := 0x02, schedule := rest })

/-- R118: once armed, no step but reset changes `CTRL`, `CMP`, `IEN`, `GIE` or the life-cycle state. -/
def Obligations.ArmedTimerNeverStops : Prop :=
  ∀ s t : State, s.phase = .armed → nextTurn s ≠ .reset → step s = .next t →
    t.ctrl = s.ctrl ∧ t.cmp = s.cmp ∧ t.ien = s.ien ∧ t.gie = s.gie ∧ t.phase = .armed

/-! ### The interrupt -/

/-- R126: DELIVER is enabled exactly when `CMF`, `CMIE` and `GIE` are 1 and `INSVC` is 0; then it clears
`CMF`, sets `INSVC` and invokes the callback once, and nothing else changes; in any other state no
delivery happens; `GIE` is 0 from M1 to M7, and before the first arming delivery is not enabled at
`SEQ = 1` either. The invocation is recorded in the model's count (log 16). -/
def Obligations.DeliverTakesTheInterrupt : Prop :=
  (∀ s : State, nextTurn s = .deliver →
    (s.cmf = true → s.cmie = true → s.gie = 1 → s.insvc = false →
      step s = .next { dropTurn s with
        iflg := 0, insvc := true, invocations := s.invocations + 1 }) ∧
    (s.cmf = false ∨ s.cmie = false ∨ s.gie = 0 ∨ s.insvc = true →
      ∀ t, step s = .next t → t = dropTurn s)) ∧
  (∀ s : State, Consistent s → 1 ≤ s.seq.toNat →
    (2 ≤ s.seq.toNat → s.gie = 0) ∧ s.deliverable = false)

/-- R128: RETURN makes `INSVC` 0 and restores nothing else; a flag set during the callback makes DELIVER
enabled again at once. -/
def Obligations.ReturnEndsTheCallback : Prop :=
  ∀ s : State, nextTurn s = .ret → s.insvc = true →
    ∃ t, step s = .next t ∧ t = { dropTurn s with insvc := false } ∧
      (s.cmf = true → s.cmie = true → s.gie = 1 → t.deliverable = true)

/-- The model's choice (log 3): a DELIVER turn that is not enabled, and a RETURN turn with `INSVC = 0`,
change nothing and the run goes on. The spec says when these steps are enabled (60_exceptions.md sections
3 and 4, R126, R128). -/
def Obligations.TurnsNotEnabledPass : Prop :=
  ∀ s : State,
    (nextTurn s = .deliver → s.deliverable = false → step s = .next (dropTurn s)) ∧
    (nextTurn s = .ret → s.insvc = false → step s = .next (dropTurn s))

/-- R132: DELIVER is not enabled while `INSVC = 1`; at most one callback is active: an invocation happens
only from `INSVC = 0` and leaves `INSVC = 1`; a match during the callback, by a tick or by the reference
cycle that completes one, sets `CMF` and, beside the counter (and the phase), changes nothing else. -/
def Obligations.CallbackIsNotReentered : Prop :=
  (∀ s : State, s.insvc = true → s.deliverable = false) ∧
  (∀ s t : State, step s = .next t → t.invocations ≠ s.invocations →
    s.insvc = false ∧ t.insvc = true ∧ t.invocations = s.invocations + 1) ∧
  (∀ (s : State) (d : Nat), s.insvc = true → RunsAt s d → s.cnt = s.cmp →
    (nextTurn s = .tick →
      ∃ t, step s = .next t ∧ t = { dropTurn s with cnt := 0, iflg := 0x02 } ∧ t.cmf = true) ∧
    (nextTurn s = .cycle → s.psc.toNat + 1 = d →
      ∃ t, step s = .next t ∧ t = { dropTurn s with psc := 0, cnt := 0, iflg := 0x02 } ∧
        t.cmf = true)) ∧
  (∀ s t : State, s.insvc = true → nextTurn s = .tick ∨ nextTurn s = .cycle → step s = .next t →
    t.invocations = s.invocations ∧ t.insvc = true ∧ (s.cmf = true → t.cmf = true))

/-- 60_exceptions.md section 5, R130: a match while the flag is set is absorbed: after it, delivery,
return and a further delivery turn invoke the callback once only. The last turn is a DELIVER that is not
enabled; that it passes, so that the run goes on, is the model's choice (log 3). -/
def Obligations.MatchWhilePendingIsAbsorbed : Prop :=
  ∀ (s : State) (d : Nat) (rest : List Turn), RunsAt s d → s.cnt = s.cmp → s.cmf = true →
    s.cmie = true → s.gie = 1 → s.insvc = false →
    s.schedule = [Turn.tick, Turn.deliver, Turn.ret, Turn.deliver] ++ rest →
    ∃ t : State, Host.Core.run Sys2Proof.core 4 s = .next t ∧
      t.invocations = s.invocations + 1 ∧ t.cmf = false ∧ t.cnt = 0

/-- 20_memory.md section 8, R48, over the states the invariant allows: an interrupt is delivered only in
a fully armed state, with the comparison register, the mode and the enables all written. -/
def Obligations.HandlerSeesOnlyArmedRegisters : Prop :=
  ∀ s t : State, Consistent s → step s = .next t → t.invocations ≠ s.invocations →
    s.phase = .armed ∧ s.ctc = true ∧ s.cmie = true ∧ s.gie = 1 ∧ s.seq = 0 ∧
    s.cnt.toNat ≤ s.cmp.toNat ∧ s.ctrl ∈ [0x08#8, 0x09, 0x0A, 0x0B, 0x0C, 0x0D]

/-- 60_exceptions.md section 5, R129 (a): the tick then M7, or M7 then the tick, end in the same
state. -/
def Obligations.TickAndM7Commute : Prop :=
  ∀ (s : State) (d : Nat) (rest : List Turn), s.seq = 7 → s.port = none → RunsAt s d →
    ∃ t : State,
      Host.Core.run Sys2Proof.core 2
        { s with schedule := [Turn.tick, Turn.foreground] ++ rest } = .next t ∧
      Host.Core.run Sys2Proof.core 2
        { s with schedule := [Turn.foreground, Turn.tick] ++ rest } = .next t

/-! ### Who writes what; reset; the invariant -/

/-- R40 and R44's sizes: reading a register after writing it gives the written number truncated to the
register's size, in the bits that exist (log 13); every other register, and everything that is no
register of the space, stays. -/
def Obligations.RegisterReadAfterWrite : Prop :=
  ∀ (s : State) (r : Reg) (v : Nat),
    memRead (memWrite s r v) r = (v % 2 ^ (8 * r.size)) &&& r.used ∧
    (∀ q : Reg, q ≠ r → memRead (memWrite s r v) q = memRead s q) ∧
    memWrite s r v = { s with
      ctrl := (memWrite s r v).ctrl, cnt := (memWrite s r v).cnt, cmp := (memWrite s r v).cmp,
      ien := (memWrite s r v).ien, iflg := (memWrite s r v).iflg, gie := (memWrite s r v).gie }

/-- 20_memory.md section 12, R52 (marked `[derived: ...]` there), with the single writers of R15 to R20:
a register of the register space changes only in a step of one of its writers. A reference cycle counts
as the tick it may make (log 17). -/
def Obligations.RegistersHaveOnlyTheirWriters : Prop :=
  ∀ s t : State, step s = .next t → nextTurn s ≠ .reset →
    (memRead t .ctrl ≠ memRead s .ctrl →
      nextTurn s = .foreground ∧ s.port = none ∧ (s.seq = 2 ∨ s.seq = 4 ∨ s.seq = 5)) ∧
    (memRead t .cmp ≠ memRead s .cmp →
      nextTurn s = .foreground ∧ s.port = none ∧ s.seq = 3) ∧
    (memRead t .ien ≠ memRead s .ien →
      nextTurn s = .foreground ∧ s.port = none ∧ s.seq = 6) ∧
    (memRead t .gie ≠ memRead s .gie →
      nextTurn s = .foreground ∧ s.port = none ∧ (s.seq = 1 ∨ s.seq = 7)) ∧
    (memRead t .cnt ≠ memRead s .cnt →
      (nextTurn s = .foreground ∧ s.port = none ∧ s.seq = 2) ∨
        nextTurn s = .tick ∨ nextTurn s = .cycle) ∧
    (memRead t .iflg ≠ memRead s .iflg →
      nextTurn s = .tick ∨ nextTurn s = .cycle ∨ nextTurn s = .deliver)

/-- R14: `PHASE` as it is derived from `SEQ` and `ARMED`; `ARMED` is written only by M7, to 1, and by reset,
to 0; no transition out of Armed except reset; no state of the invariant has `ARMED = 1` with
`SEQ != 0`. -/
def Obligations.LifeCycleLeavesArmedOnlyByReset : Prop :=
  (∀ s : State, (s.phase = .configuring ↔ 2 ≤ s.seq.toNat) ∧
    (s.phase = .armed ↔ s.seq = 0 ∧ s.armed = true) ∧
    (s.phase = .disarmed ↔ ¬ 2 ≤ s.seq.toNat ∧ ¬ (s.seq = 0 ∧ s.armed = true))) ∧
  (∀ s t : State, step s = .next t → t.armed ≠ s.armed →
    (nextTurn s = .reset ∧ t.armed = false) ∨
      (nextTurn s = .foreground ∧ s.port = none ∧ s.seq = 7 ∧ t.armed = true)) ∧
  (∀ s t : State, step s = .next t → s.phase = .armed → nextTurn s ≠ .reset → t.phase = .armed) ∧
  (∀ s : State, Consistent s → ¬ (s.armed = true ∧ s.seq ≠ 0))

/-- R27: the values the spec states for reset (the working registers and `PSC` are unspecified there
and are not stated here). -/
def Obligations.ResetLeavesTheStatedValues : Prop :=
  State.reset.seq = 0 ∧ State.reset.armed = false ∧ State.reset.phase = .disarmed ∧
  State.reset.ctrl = 0x00 ∧ State.reset.cnt = 0x0000 ∧ State.reset.cmp = 0x0000 ∧
  State.reset.ien = 0x00 ∧ State.reset.iflg = 0x00 ∧ State.reset.gie = 0 ∧
  State.reset.insvc = false

/-- R150: reset in any state gives the registers the values of R27 and drops a pending command word; then no
turn does anything until a command is presented: the next state, if the turn has one, is the same (that
these turns have one is `StoppedCounterKeepsItsValue`, `TurnsNotEnabledPass` and `IdleChangesNothing`);
and only reset returns to Disarmed. (The working registers and `PSC` are unspecified; nothing is stated
of them.) -/
def Obligations.ResetEventReturnsToDisarmed : Prop :=
  (∀ s : State, nextTurn s = .reset → ∃ t, step s = .next t ∧
    t.seq = 0 ∧ t.armed = false ∧ t.ctrl = 0 ∧ t.cnt = 0 ∧ t.cmp = 0 ∧ t.ien = 0 ∧ t.iflg = 0 ∧
    t.gie = 0 ∧ t.insvc = false ∧ t.port = none ∧ t.phase = .disarmed ∧ t.deliverable = false ∧
    t.cs = 0 ∧ t.cmf = false ∧ t.schedule = (dropTurn s).schedule ∧ t.rounds = (dropTurn s).rounds ∧
    (∀ x : Turn, (∀ w, x ≠ .present w) → x ≠ .reset → ∀ u, runTurn x t = .next u → u = t)) ∧
  (∀ s t : State, step s = .next t → s.phase ≠ .disarmed → t.phase = .disarmed →
    nextTurn s = .reset)

/-- R23 and the table of R67: `CSMAP` is defined exactly on `DIVS`, is injective there and never 0, reads
0 for every unmapped divisor, and `DIVOF` is its inverse, with no divisor for the codes 0, 6 and 7. -/
def Obligations.ClockTableIsInjective : Prop :=
  (∀ d : BitVec 16, csmap d = clockCode d) ∧
  (∀ d : BitVec 16, csmap d ≠ 0 ↔ d.toNat ∈ divisors) ∧
  (∀ d e : BitVec 16, csmap d ≠ 0 → csmap d = csmap e → d = e) ∧
  (∀ d : BitVec 16, csmap d ≠ 0 → divOf (csmap d) = some d.toNat) ∧
  divOf 0 = none ∧ divOf 6 = none ∧ divOf 7 = none ∧
  Config.divs.map BitVec.toNat = divisors ∧ Config.divs.Pairwise (fun a b => a.toNat < b.toNat)

/-- The invariant holds at reset. -/
def Obligations.ConsistentAtReset : Prop := Consistent State.reset

/-- The invariant of the machine is kept by every step, from every state that has it, whoever moves and
whatever is presented; among its clauses are R28 (`CNT <= CMP` from M3 on), R14, R18, R19, R22. R28 is
marked `[derived: ...]` in the spec. -/
def Obligations.EveryStepKeepsConsistent : Prop :=
  ∀ s t : State, Consistent s → step s = .next t → Consistent t
end

