-- ==== Sys2Proof/Laws/Encoding.lean ====
section
/-! SUPPORT. The bits of an encoded command word, its fields and its row's mask (spec
30_encoding.md R60, R61). -/

namespace Sys2Proof

/-! ### The bits of an encoded word -/

theorem encodeF_getLsbD (op : BitVec 2) (freq : BitVec 32) (i : Nat) :
    (encodeF op freq).getLsbD i =
      if i < 32 then freq.getLsbD i else if i < 62 then false else op.getLsbD (i - 62) := by
  change (op ++ (0 : BitVec 30) ++ freq).getLsbD i = _
  simp only [BitVec.getLsbD_append]
  split_ifs <;> (try omega) <;> simp [show i - 32 - 30 = i - 62 by omega]

theorem encodeA_getLsbD (op : BitVec 2) (d : BitVec 16) (th : BitVec 40) (i : Nat) :
    (encodeA op d th).getLsbD i =
      if i < 40 then th.getLsbD i else if i < 56 then d.getLsbD (i - 40)
      else if i < 62 then false else op.getLsbD (i - 62) := by
  change (op ++ (0 : BitVec 6) ++ d ++ th).getLsbD i = _
  simp only [BitVec.getLsbD_append]
  split_ifs <;> (try omega) <;> simp [show i - 40 - 16 - 6 = i - 62 by omega]

theorem encodeReserved_getLsbD (body : BitVec 62) (i : Nat) :
    (encodeReserved body).getLsbD i = body.getLsbD i := by
  change ((0 : BitVec 2) ++ body).getLsbD i = _
  rw [BitVec.getLsbD_append]
  split_ifs with h
  · rfl
  · simp [BitVec.getLsbD_of_ge body i (by omega)]

/-! ### The fields of an encoded word -/

@[simp] theorem freqField_encodeF (op : BitVec 2) (freq : BitVec 32) :
    freqField (encodeF op freq) = freq := by
  apply BitVec.eq_of_getLsbD_eq
  intro i hi
  simp [freqField, encodeF_getLsbD, hi]

@[simp] theorem threshField_encodeA (op : BitVec 2) (d : BitVec 16) (th : BitVec 40) :
    threshField (encodeA op d th) = th := by
  apply BitVec.eq_of_getLsbD_eq
  intro i hi
  simp [threshField, encodeA_getLsbD, hi]

@[simp] theorem divisorField_encodeA (op : BitVec 2) (d : BitVec 16) (th : BitVec 40) :
    divisorField (encodeA op d th) = d := by
  apply BitVec.eq_of_getLsbD_eq
  intro i hi
  simp [divisorField, encodeA_getLsbD, hi, show 40 + i < 56 by omega]

@[simp] theorem reservedField_encodeReserved (body : BitVec 62) :
    reservedField (encodeReserved body) = body := by
  apply BitVec.eq_of_getLsbD_eq
  intro i hi
  simp [reservedField, encodeReserved_getLsbD, hi]

/-! ### Rows -/

theorem Row.selects_iff (r : Row) (w : CmdWord) :
    r.selects w = true ↔ w &&& BitVec.ofNat 64 r.mask = BitVec.ofNat 64 r.pattern := by
  simp [Row.selects]

theorem rowReserved_selects_iff (w : CmdWord) :
    rowReserved.selects w = true ↔ w &&& 0xC000000000000000#64 = 0 := Row.selects_iff _ w

theorem rowSelect_selects_iff (w : CmdWord) :
    rowSelect.selects w = true ↔ w &&& 0xFFFFFFFF00000000#64 = 0x4000000000000000#64 :=
  Row.selects_iff _ w

theorem rowArm_selects_iff (w : CmdWord) :
    rowArm.selects w = true ↔ w &&& 0xFF00000000000000#64 = 0x8000000000000000#64 :=
  Row.selects_iff _ w

theorem rowConfigure_selects_iff (w : CmdWord) :
    rowConfigure.selects w = true ↔ w &&& 0xFFFFFFFF00000000#64 = 0xC000000000000000#64 :=
  Row.selects_iff _ w

/-- A word a row selects has the row's pattern in the bits of the mask. -/
theorem Row.selects_bit (r : Row) (w : CmdWord) (h : r.selects w = true) (i : Nat)
    (hm : (BitVec.ofNat 64 r.mask).getLsbD i = true) :
    w.getLsbD i = (BitVec.ofNat 64 r.pattern).getLsbD i := by
  rw [← (r.selects_iff w).1 h, BitVec.getLsbD_and, hm, Bool.and_true]

/-- A row selects a word that agrees with its pattern in the bits of the mask, when the pattern has
no bit outside the mask. -/
theorem Row.selects_of_bits (r : Row) (w : CmdWord)
    (hp : BitVec.ofNat 64 r.pattern &&& BitVec.ofNat 64 r.mask = BitVec.ofNat 64 r.pattern)
    (h : ∀ i < 64, (BitVec.ofNat 64 r.mask).getLsbD i = true →
      w.getLsbD i = (BitVec.ofNat 64 r.pattern).getLsbD i) : r.selects w = true := by
  rw [Row.selects_iff, ← hp]
  apply BitVec.eq_of_getLsbD_eq
  intro i hi
  rw [BitVec.getLsbD_and, BitVec.getLsbD_and]
  cases hm : (BitVec.ofNat 64 r.mask).getLsbD i with
  | false => simp
  | true => rw [h i hi hm]

/-- Two rows that both select a word agree where both masks are set. -/
theorem Row.selects_unique (r q : Row) (w : CmdWord)
    (hd : BitVec.ofNat 64 r.pattern &&& BitVec.ofNat 64 q.mask ≠
      BitVec.ofNat 64 q.pattern &&& BitVec.ofNat 64 r.mask)
    (hr : r.selects w = true) : q.selects w = false := by
  by_contra hq
  apply hd
  rw [← (r.selects_iff w).1 hr, ← (q.selects_iff w).1 (by simpa using hq), BitVec.and_assoc,
    BitVec.and_assoc, BitVec.and_comm (BitVec.ofNat 64 r.mask)]

theorem rowSelect_selects_encodeF (freq : BitVec 32) : rowSelect.selects (encodeF 1 freq) = true := by
  refine Row.selects_of_bits _ _ (by decide) fun i hi hm => ?_
  have h32 : ¬ i < 32 := by revert hm; revert i; decide
  rw [encodeF_getLsbD, if_neg h32]
  revert h32; revert hm; revert i; decide

theorem rowConfigure_selects_encodeF (freq : BitVec 32) :
    rowConfigure.selects (encodeF 3 freq) = true := by
  refine Row.selects_of_bits _ _ (by decide) fun i hi hm => ?_
  have h32 : ¬ i < 32 := by revert hm; revert i; decide
  rw [encodeF_getLsbD, if_neg h32]
  revert h32; revert hm; revert i; decide

theorem rowArm_selects_encodeA (d : BitVec 16) (th : BitVec 40) :
    rowArm.selects (encodeA 2 d th) = true := by
  refine Row.selects_of_bits _ _ (by decide) fun i hi hm => ?_
  have h56 : ¬ i < 56 := by revert hm; revert i; decide
  rw [encodeA_getLsbD, if_neg (by omega), if_neg h56]
  revert h56; revert hm; revert i; decide

theorem rowReserved_selects_encodeReserved (body : BitVec 62) :
    rowReserved.selects (encodeReserved body) = true := by
  refine Row.selects_of_bits _ _ (by decide) fun i hi hm => ?_
  have h62 : ¬ i < 62 := by revert hm; revert i; decide
  rw [encodeReserved_getLsbD, BitVec.getLsbD_of_ge body i (by omega)]
  revert hm; revert i; decide

/-! ### The decoder, row by row -/

theorem decodeCommand_of_reserved (w : CmdWord) (h : rowReserved.selects w = true) :
    decodeCommand w = .ok (.reserved (reservedField w)) := by
  simp [decodeCommand, h]

theorem decodeCommand_of_select (w : CmdWord) (h : rowSelect.selects w = true) :
    decodeCommand w = .ok (.select (freqField w)) := by
  have h0 := rowSelect.selects_unique rowReserved w (by decide) h
  simp [decodeCommand, h, h0]

theorem decodeCommand_of_arm (w : CmdWord) (h : rowArm.selects w = true) :
    decodeCommand w = .ok (.arm (divisorField w) (threshField w)) := by
  have h0 := rowArm.selects_unique rowReserved w (by decide) h
  have h1 := rowArm.selects_unique rowSelect w (by decide) h
  simp [decodeCommand, h, h0, h1]

theorem decodeCommand_of_configure (w : CmdWord) (h : rowConfigure.selects w = true) :
    decodeCommand w = .ok (.configure (freqField w)) := by
  have h0 := rowConfigure.selects_unique rowReserved w (by decide) h
  have h1 := rowConfigure.selects_unique rowSelect w (by decide) h
  have h2 := rowConfigure.selects_unique rowArm w (by decide) h
  simp [decodeCommand, h, h0, h1, h2]

end Sys2Proof
end

