-- ==== Sys2Proof/Laws/State.lean ====
section
/-! SUPPORT. One lemma for each field after each named update of the state, true by rfl. -/

namespace Sys2Proof.Machine

variable (s : State)

/-! ### writeCtrl -/

@[simp] theorem writeCtrl_freq (v : BitVec 8) :
    (writeCtrl s v).freq = s.freq := rfl
@[simp] theorem writeCtrl_divr (v : BitVec 8) :
    (writeCtrl s v).divr = s.divr := rfl
@[simp] theorem writeCtrl_thr (v : BitVec 8) :
    (writeCtrl s v).thr = s.thr := rfl
@[simp] theorem writeCtrl_idx (v : BitVec 8) :
    (writeCtrl s v).idx = s.idx := rfl
@[simp] theorem writeCtrl_seq (v : BitVec 8) :
    (writeCtrl s v).seq = s.seq := rfl
@[simp] theorem writeCtrl_armed (v : BitVec 8) :
    (writeCtrl s v).armed = s.armed := rfl
@[simp] theorem writeCtrl_ctrl (v : BitVec 8) :
    (writeCtrl s v).ctrl = v &&& ctrlUsed := rfl
@[simp] theorem writeCtrl_cnt (v : BitVec 8) :
    (writeCtrl s v).cnt = s.cnt := rfl
@[simp] theorem writeCtrl_cmp (v : BitVec 8) :
    (writeCtrl s v).cmp = s.cmp := rfl
@[simp] theorem writeCtrl_ien (v : BitVec 8) :
    (writeCtrl s v).ien = s.ien := rfl
@[simp] theorem writeCtrl_iflg (v : BitVec 8) :
    (writeCtrl s v).iflg = s.iflg := rfl
@[simp] theorem writeCtrl_gie (v : BitVec 8) :
    (writeCtrl s v).gie = s.gie := rfl
@[simp] theorem writeCtrl_insvc (v : BitVec 8) :
    (writeCtrl s v).insvc = s.insvc := rfl
@[simp] theorem writeCtrl_psc (v : BitVec 8) :
    (writeCtrl s v).psc = s.psc := rfl
@[simp] theorem writeCtrl_port (v : BitVec 8) :
    (writeCtrl s v).port = s.port := rfl
@[simp] theorem writeCtrl_resValid (v : BitVec 8) :
    (writeCtrl s v).resValid = s.resValid := rfl
@[simp] theorem writeCtrl_schedule (v : BitVec 8) :
    (writeCtrl s v).schedule = s.schedule := rfl
@[simp] theorem writeCtrl_rounds (v : BitVec 8) :
    (writeCtrl s v).rounds = s.rounds := rfl
@[simp] theorem writeCtrl_draws (v : BitVec 8) :
    (writeCtrl s v).draws = s.draws := rfl
@[simp] theorem writeCtrl_invocations (v : BitVec 8) :
    (writeCtrl s v).invocations = s.invocations := rfl

/-! ### writeCnt -/

@[simp] theorem writeCnt_freq (v : BitVec 16) :
    (writeCnt s v).freq = s.freq := rfl
@[simp] theorem writeCnt_divr (v : BitVec 16) :
    (writeCnt s v).divr = s.divr := rfl
@[simp] theorem writeCnt_thr (v : BitVec 16) :
    (writeCnt s v).thr = s.thr := rfl
@[simp] theorem writeCnt_idx (v : BitVec 16) :
    (writeCnt s v).idx = s.idx := rfl
@[simp] theorem writeCnt_seq (v : BitVec 16) :
    (writeCnt s v).seq = s.seq := rfl
@[simp] theorem writeCnt_armed (v : BitVec 16) :
    (writeCnt s v).armed = s.armed := rfl
@[simp] theorem writeCnt_ctrl (v : BitVec 16) :
    (writeCnt s v).ctrl = s.ctrl := rfl
@[simp] theorem writeCnt_cnt (v : BitVec 16) :
    (writeCnt s v).cnt = v := rfl
@[simp] theorem writeCnt_cmp (v : BitVec 16) :
    (writeCnt s v).cmp = s.cmp := rfl
@[simp] theorem writeCnt_ien (v : BitVec 16) :
    (writeCnt s v).ien = s.ien := rfl
@[simp] theorem writeCnt_iflg (v : BitVec 16) :
    (writeCnt s v).iflg = s.iflg := rfl
@[simp] theorem writeCnt_gie (v : BitVec 16) :
    (writeCnt s v).gie = s.gie := rfl
@[simp] theorem writeCnt_insvc (v : BitVec 16) :
    (writeCnt s v).insvc = s.insvc := rfl
@[simp] theorem writeCnt_psc (v : BitVec 16) :
    (writeCnt s v).psc = s.psc := rfl
@[simp] theorem writeCnt_port (v : BitVec 16) :
    (writeCnt s v).port = s.port := rfl
@[simp] theorem writeCnt_resValid (v : BitVec 16) :
    (writeCnt s v).resValid = s.resValid := rfl
@[simp] theorem writeCnt_schedule (v : BitVec 16) :
    (writeCnt s v).schedule = s.schedule := rfl
@[simp] theorem writeCnt_rounds (v : BitVec 16) :
    (writeCnt s v).rounds = s.rounds := rfl
@[simp] theorem writeCnt_draws (v : BitVec 16) :
    (writeCnt s v).draws = s.draws := rfl
@[simp] theorem writeCnt_invocations (v : BitVec 16) :
    (writeCnt s v).invocations = s.invocations := rfl

/-! ### writeCmp -/

@[simp] theorem writeCmp_freq (v : BitVec 16) :
    (writeCmp s v).freq = s.freq := rfl
@[simp] theorem writeCmp_divr (v : BitVec 16) :
    (writeCmp s v).divr = s.divr := rfl
@[simp] theorem writeCmp_thr (v : BitVec 16) :
    (writeCmp s v).thr = s.thr := rfl
@[simp] theorem writeCmp_idx (v : BitVec 16) :
    (writeCmp s v).idx = s.idx := rfl
@[simp] theorem writeCmp_seq (v : BitVec 16) :
    (writeCmp s v).seq = s.seq := rfl
@[simp] theorem writeCmp_armed (v : BitVec 16) :
    (writeCmp s v).armed = s.armed := rfl
@[simp] theorem writeCmp_ctrl (v : BitVec 16) :
    (writeCmp s v).ctrl = s.ctrl := rfl
@[simp] theorem writeCmp_cnt (v : BitVec 16) :
    (writeCmp s v).cnt = s.cnt := rfl
@[simp] theorem writeCmp_cmp (v : BitVec 16) :
    (writeCmp s v).cmp = v := rfl
@[simp] theorem writeCmp_ien (v : BitVec 16) :
    (writeCmp s v).ien = s.ien := rfl
@[simp] theorem writeCmp_iflg (v : BitVec 16) :
    (writeCmp s v).iflg = s.iflg := rfl
@[simp] theorem writeCmp_gie (v : BitVec 16) :
    (writeCmp s v).gie = s.gie := rfl
@[simp] theorem writeCmp_insvc (v : BitVec 16) :
    (writeCmp s v).insvc = s.insvc := rfl
@[simp] theorem writeCmp_psc (v : BitVec 16) :
    (writeCmp s v).psc = s.psc := rfl
@[simp] theorem writeCmp_port (v : BitVec 16) :
    (writeCmp s v).port = s.port := rfl
@[simp] theorem writeCmp_resValid (v : BitVec 16) :
    (writeCmp s v).resValid = s.resValid := rfl
@[simp] theorem writeCmp_schedule (v : BitVec 16) :
    (writeCmp s v).schedule = s.schedule := rfl
@[simp] theorem writeCmp_rounds (v : BitVec 16) :
    (writeCmp s v).rounds = s.rounds := rfl
@[simp] theorem writeCmp_draws (v : BitVec 16) :
    (writeCmp s v).draws = s.draws := rfl
@[simp] theorem writeCmp_invocations (v : BitVec 16) :
    (writeCmp s v).invocations = s.invocations := rfl

/-! ### writeIen -/

@[simp] theorem writeIen_freq (v : BitVec 8) :
    (writeIen s v).freq = s.freq := rfl
@[simp] theorem writeIen_divr (v : BitVec 8) :
    (writeIen s v).divr = s.divr := rfl
@[simp] theorem writeIen_thr (v : BitVec 8) :
    (writeIen s v).thr = s.thr := rfl
@[simp] theorem writeIen_idx (v : BitVec 8) :
    (writeIen s v).idx = s.idx := rfl
@[simp] theorem writeIen_seq (v : BitVec 8) :
    (writeIen s v).seq = s.seq := rfl
@[simp] theorem writeIen_armed (v : BitVec 8) :
    (writeIen s v).armed = s.armed := rfl
@[simp] theorem writeIen_ctrl (v : BitVec 8) :
    (writeIen s v).ctrl = s.ctrl := rfl
@[simp] theorem writeIen_cnt (v : BitVec 8) :
    (writeIen s v).cnt = s.cnt := rfl
@[simp] theorem writeIen_cmp (v : BitVec 8) :
    (writeIen s v).cmp = s.cmp := rfl
@[simp] theorem writeIen_ien (v : BitVec 8) :
    (writeIen s v).ien = v &&& cmieMask := rfl
@[simp] theorem writeIen_iflg (v : BitVec 8) :
    (writeIen s v).iflg = s.iflg := rfl
@[simp] theorem writeIen_gie (v : BitVec 8) :
    (writeIen s v).gie = s.gie := rfl
@[simp] theorem writeIen_insvc (v : BitVec 8) :
    (writeIen s v).insvc = s.insvc := rfl
@[simp] theorem writeIen_psc (v : BitVec 8) :
    (writeIen s v).psc = s.psc := rfl
@[simp] theorem writeIen_port (v : BitVec 8) :
    (writeIen s v).port = s.port := rfl
@[simp] theorem writeIen_resValid (v : BitVec 8) :
    (writeIen s v).resValid = s.resValid := rfl
@[simp] theorem writeIen_schedule (v : BitVec 8) :
    (writeIen s v).schedule = s.schedule := rfl
@[simp] theorem writeIen_rounds (v : BitVec 8) :
    (writeIen s v).rounds = s.rounds := rfl
@[simp] theorem writeIen_draws (v : BitVec 8) :
    (writeIen s v).draws = s.draws := rfl
@[simp] theorem writeIen_invocations (v : BitVec 8) :
    (writeIen s v).invocations = s.invocations := rfl

/-! ### writeIflg -/

@[simp] theorem writeIflg_freq (v : BitVec 8) :
    (writeIflg s v).freq = s.freq := rfl
@[simp] theorem writeIflg_divr (v : BitVec 8) :
    (writeIflg s v).divr = s.divr := rfl
@[simp] theorem writeIflg_thr (v : BitVec 8) :
    (writeIflg s v).thr = s.thr := rfl
@[simp] theorem writeIflg_idx (v : BitVec 8) :
    (writeIflg s v).idx = s.idx := rfl
@[simp] theorem writeIflg_seq (v : BitVec 8) :
    (writeIflg s v).seq = s.seq := rfl
@[simp] theorem writeIflg_armed (v : BitVec 8) :
    (writeIflg s v).armed = s.armed := rfl
@[simp] theorem writeIflg_ctrl (v : BitVec 8) :
    (writeIflg s v).ctrl = s.ctrl := rfl
@[simp] theorem writeIflg_cnt (v : BitVec 8) :
    (writeIflg s v).cnt = s.cnt := rfl
@[simp] theorem writeIflg_cmp (v : BitVec 8) :
    (writeIflg s v).cmp = s.cmp := rfl
@[simp] theorem writeIflg_ien (v : BitVec 8) :
    (writeIflg s v).ien = s.ien := rfl
@[simp] theorem writeIflg_iflg (v : BitVec 8) :
    (writeIflg s v).iflg = v &&& cmfMask := rfl
@[simp] theorem writeIflg_gie (v : BitVec 8) :
    (writeIflg s v).gie = s.gie := rfl
@[simp] theorem writeIflg_insvc (v : BitVec 8) :
    (writeIflg s v).insvc = s.insvc := rfl
@[simp] theorem writeIflg_psc (v : BitVec 8) :
    (writeIflg s v).psc = s.psc := rfl
@[simp] theorem writeIflg_port (v : BitVec 8) :
    (writeIflg s v).port = s.port := rfl
@[simp] theorem writeIflg_resValid (v : BitVec 8) :
    (writeIflg s v).resValid = s.resValid := rfl
@[simp] theorem writeIflg_schedule (v : BitVec 8) :
    (writeIflg s v).schedule = s.schedule := rfl
@[simp] theorem writeIflg_rounds (v : BitVec 8) :
    (writeIflg s v).rounds = s.rounds := rfl
@[simp] theorem writeIflg_draws (v : BitVec 8) :
    (writeIflg s v).draws = s.draws := rfl
@[simp] theorem writeIflg_invocations (v : BitVec 8) :
    (writeIflg s v).invocations = s.invocations := rfl

/-! ### writeGie -/

@[simp] theorem writeGie_freq (v : BitVec 8) :
    (writeGie s v).freq = s.freq := rfl
@[simp] theorem writeGie_divr (v : BitVec 8) :
    (writeGie s v).divr = s.divr := rfl
@[simp] theorem writeGie_thr (v : BitVec 8) :
    (writeGie s v).thr = s.thr := rfl
@[simp] theorem writeGie_idx (v : BitVec 8) :
    (writeGie s v).idx = s.idx := rfl
@[simp] theorem writeGie_seq (v : BitVec 8) :
    (writeGie s v).seq = s.seq := rfl
@[simp] theorem writeGie_armed (v : BitVec 8) :
    (writeGie s v).armed = s.armed := rfl
@[simp] theorem writeGie_ctrl (v : BitVec 8) :
    (writeGie s v).ctrl = s.ctrl := rfl
@[simp] theorem writeGie_cnt (v : BitVec 8) :
    (writeGie s v).cnt = s.cnt := rfl
@[simp] theorem writeGie_cmp (v : BitVec 8) :
    (writeGie s v).cmp = s.cmp := rfl
@[simp] theorem writeGie_ien (v : BitVec 8) :
    (writeGie s v).ien = s.ien := rfl
@[simp] theorem writeGie_iflg (v : BitVec 8) :
    (writeGie s v).iflg = s.iflg := rfl
@[simp] theorem writeGie_gie (v : BitVec 8) :
    (writeGie s v).gie = v.setWidth 1 := rfl
@[simp] theorem writeGie_insvc (v : BitVec 8) :
    (writeGie s v).insvc = s.insvc := rfl
@[simp] theorem writeGie_psc (v : BitVec 8) :
    (writeGie s v).psc = s.psc := rfl
@[simp] theorem writeGie_port (v : BitVec 8) :
    (writeGie s v).port = s.port := rfl
@[simp] theorem writeGie_resValid (v : BitVec 8) :
    (writeGie s v).resValid = s.resValid := rfl
@[simp] theorem writeGie_schedule (v : BitVec 8) :
    (writeGie s v).schedule = s.schedule := rfl
@[simp] theorem writeGie_rounds (v : BitVec 8) :
    (writeGie s v).rounds = s.rounds := rfl
@[simp] theorem writeGie_draws (v : BitVec 8) :
    (writeGie s v).draws = s.draws := rfl
@[simp] theorem writeGie_invocations (v : BitVec 8) :
    (writeGie s v).invocations = s.invocations := rfl

/-! ### discardWorking -/

@[simp] theorem discardWorking_freq :
    (discardWorking s).freq = Config.freeFreq s.draws := rfl
@[simp] theorem discardWorking_divr :
    (discardWorking s).divr = Config.freeDivr s.draws := rfl
@[simp] theorem discardWorking_thr :
    (discardWorking s).thr = Config.freeThr s.draws := rfl
@[simp] theorem discardWorking_idx :
    (discardWorking s).idx = Config.freeIdx s.draws := rfl
@[simp] theorem discardWorking_seq :
    (discardWorking s).seq = s.seq := rfl
@[simp] theorem discardWorking_armed :
    (discardWorking s).armed = s.armed := rfl
@[simp] theorem discardWorking_ctrl :
    (discardWorking s).ctrl = s.ctrl := rfl
@[simp] theorem discardWorking_cnt :
    (discardWorking s).cnt = s.cnt := rfl
@[simp] theorem discardWorking_cmp :
    (discardWorking s).cmp = s.cmp := rfl
@[simp] theorem discardWorking_ien :
    (discardWorking s).ien = s.ien := rfl
@[simp] theorem discardWorking_iflg :
    (discardWorking s).iflg = s.iflg := rfl
@[simp] theorem discardWorking_gie :
    (discardWorking s).gie = s.gie := rfl
@[simp] theorem discardWorking_insvc :
    (discardWorking s).insvc = s.insvc := rfl
@[simp] theorem discardWorking_psc :
    (discardWorking s).psc = s.psc := rfl
@[simp] theorem discardWorking_port :
    (discardWorking s).port = s.port := rfl
@[simp] theorem discardWorking_resValid :
    (discardWorking s).resValid = s.resValid := rfl
@[simp] theorem discardWorking_schedule :
    (discardWorking s).schedule = s.schedule := rfl
@[simp] theorem discardWorking_rounds :
    (discardWorking s).rounds = s.rounds := rfl
@[simp] theorem discardWorking_draws :
    (discardWorking s).draws = s.draws + 1 := rfl
@[simp] theorem discardWorking_invocations :
    (discardWorking s).invocations = s.invocations := rfl

/-! ### returnFromInterrupt -/

@[simp] theorem returnFromInterrupt_freq :
    (returnFromInterrupt s).freq = s.freq := rfl
@[simp] theorem returnFromInterrupt_divr :
    (returnFromInterrupt s).divr = s.divr := rfl
@[simp] theorem returnFromInterrupt_thr :
    (returnFromInterrupt s).thr = s.thr := rfl
@[simp] theorem returnFromInterrupt_idx :
    (returnFromInterrupt s).idx = s.idx := rfl
@[simp] theorem returnFromInterrupt_seq :
    (returnFromInterrupt s).seq = s.seq := rfl
@[simp] theorem returnFromInterrupt_armed :
    (returnFromInterrupt s).armed = s.armed := rfl
@[simp] theorem returnFromInterrupt_ctrl :
    (returnFromInterrupt s).ctrl = s.ctrl := rfl
@[simp] theorem returnFromInterrupt_cnt :
    (returnFromInterrupt s).cnt = s.cnt := rfl
@[simp] theorem returnFromInterrupt_cmp :
    (returnFromInterrupt s).cmp = s.cmp := rfl
@[simp] theorem returnFromInterrupt_ien :
    (returnFromInterrupt s).ien = s.ien := rfl
@[simp] theorem returnFromInterrupt_iflg :
    (returnFromInterrupt s).iflg = s.iflg := rfl
@[simp] theorem returnFromInterrupt_gie :
    (returnFromInterrupt s).gie = s.gie := rfl
@[simp] theorem returnFromInterrupt_insvc :
    (returnFromInterrupt s).insvc = false := rfl
@[simp] theorem returnFromInterrupt_psc :
    (returnFromInterrupt s).psc = s.psc := rfl
@[simp] theorem returnFromInterrupt_port :
    (returnFromInterrupt s).port = s.port := rfl
@[simp] theorem returnFromInterrupt_resValid :
    (returnFromInterrupt s).resValid = s.resValid := rfl
@[simp] theorem returnFromInterrupt_schedule :
    (returnFromInterrupt s).schedule = s.schedule := rfl
@[simp] theorem returnFromInterrupt_rounds :
    (returnFromInterrupt s).rounds = s.rounds := rfl
@[simp] theorem returnFromInterrupt_draws :
    (returnFromInterrupt s).draws = s.draws := rfl
@[simp] theorem returnFromInterrupt_invocations :
    (returnFromInterrupt s).invocations = s.invocations := rfl

/-! ### clearPort -/

@[simp] theorem clearPort_freq :
    (clearPort s).freq = s.freq := rfl
@[simp] theorem clearPort_divr :
    (clearPort s).divr = s.divr := rfl
@[simp] theorem clearPort_thr :
    (clearPort s).thr = s.thr := rfl
@[simp] theorem clearPort_idx :
    (clearPort s).idx = s.idx := rfl
@[simp] theorem clearPort_seq :
    (clearPort s).seq = s.seq := rfl
@[simp] theorem clearPort_armed :
    (clearPort s).armed = s.armed := rfl
@[simp] theorem clearPort_ctrl :
    (clearPort s).ctrl = s.ctrl := rfl
@[simp] theorem clearPort_cnt :
    (clearPort s).cnt = s.cnt := rfl
@[simp] theorem clearPort_cmp :
    (clearPort s).cmp = s.cmp := rfl
@[simp] theorem clearPort_ien :
    (clearPort s).ien = s.ien := rfl
@[simp] theorem clearPort_iflg :
    (clearPort s).iflg = s.iflg := rfl
@[simp] theorem clearPort_gie :
    (clearPort s).gie = s.gie := rfl
@[simp] theorem clearPort_insvc :
    (clearPort s).insvc = s.insvc := rfl
@[simp] theorem clearPort_psc :
    (clearPort s).psc = s.psc := rfl
@[simp] theorem clearPort_port :
    (clearPort s).port = none := rfl
@[simp] theorem clearPort_resValid :
    (clearPort s).resValid = s.resValid := rfl
@[simp] theorem clearPort_schedule :
    (clearPort s).schedule = s.schedule := rfl
@[simp] theorem clearPort_rounds :
    (clearPort s).rounds = s.rounds := rfl
@[simp] theorem clearPort_draws :
    (clearPort s).draws = s.draws := rfl
@[simp] theorem clearPort_invocations :
    (clearPort s).invocations = s.invocations := rfl

/-! ### dropTurn -/

@[simp] theorem dropTurn_freq :
    (dropTurn s).freq = s.freq := rfl
@[simp] theorem dropTurn_divr :
    (dropTurn s).divr = s.divr := rfl
@[simp] theorem dropTurn_thr :
    (dropTurn s).thr = s.thr := rfl
@[simp] theorem dropTurn_idx :
    (dropTurn s).idx = s.idx := rfl
@[simp] theorem dropTurn_seq :
    (dropTurn s).seq = s.seq := rfl
@[simp] theorem dropTurn_armed :
    (dropTurn s).armed = s.armed := rfl
@[simp] theorem dropTurn_ctrl :
    (dropTurn s).ctrl = s.ctrl := rfl
@[simp] theorem dropTurn_cnt :
    (dropTurn s).cnt = s.cnt := rfl
@[simp] theorem dropTurn_cmp :
    (dropTurn s).cmp = s.cmp := rfl
@[simp] theorem dropTurn_ien :
    (dropTurn s).ien = s.ien := rfl
@[simp] theorem dropTurn_iflg :
    (dropTurn s).iflg = s.iflg := rfl
@[simp] theorem dropTurn_gie :
    (dropTurn s).gie = s.gie := rfl
@[simp] theorem dropTurn_insvc :
    (dropTurn s).insvc = s.insvc := rfl
@[simp] theorem dropTurn_psc :
    (dropTurn s).psc = s.psc := rfl
@[simp] theorem dropTurn_port :
    (dropTurn s).port = s.port := rfl
@[simp] theorem dropTurn_resValid :
    (dropTurn s).resValid = s.resValid := rfl
@[simp] theorem dropTurn_schedule :
    (dropTurn s).schedule = (turnsToCome s).tail := rfl
@[simp] theorem dropTurn_rounds :
    (dropTurn s).rounds = if s.schedule = [] then s.rounds + 1 else s.rounds := rfl
@[simp] theorem dropTurn_draws :
    (dropTurn s).draws = s.draws := rfl
@[simp] theorem dropTurn_invocations :
    (dropTurn s).invocations = s.invocations := rfl

/-! ### drawPhase -/

@[simp] theorem drawPhase_freq (d : Nat) :
    (drawPhase d s).freq = s.freq := rfl
@[simp] theorem drawPhase_divr (d : Nat) :
    (drawPhase d s).divr = s.divr := rfl
@[simp] theorem drawPhase_thr (d : Nat) :
    (drawPhase d s).thr = s.thr := rfl
@[simp] theorem drawPhase_idx (d : Nat) :
    (drawPhase d s).idx = s.idx := rfl
@[simp] theorem drawPhase_seq (d : Nat) :
    (drawPhase d s).seq = s.seq := rfl
@[simp] theorem drawPhase_armed (d : Nat) :
    (drawPhase d s).armed = s.armed := rfl
@[simp] theorem drawPhase_ctrl (d : Nat) :
    (drawPhase d s).ctrl = s.ctrl := rfl
@[simp] theorem drawPhase_cnt (d : Nat) :
    (drawPhase d s).cnt = s.cnt := rfl
@[simp] theorem drawPhase_cmp (d : Nat) :
    (drawPhase d s).cmp = s.cmp := rfl
@[simp] theorem drawPhase_ien (d : Nat) :
    (drawPhase d s).ien = s.ien := rfl
@[simp] theorem drawPhase_iflg (d : Nat) :
    (drawPhase d s).iflg = s.iflg := rfl
@[simp] theorem drawPhase_gie (d : Nat) :
    (drawPhase d s).gie = s.gie := rfl
@[simp] theorem drawPhase_insvc (d : Nat) :
    (drawPhase d s).insvc = s.insvc := rfl
@[simp] theorem drawPhase_psc (d : Nat) :
    (drawPhase d s).psc = BitVec.ofNat 10 ((Config.freePhase s.draws).toNat % d) := rfl
@[simp] theorem drawPhase_port (d : Nat) :
    (drawPhase d s).port = s.port := rfl
@[simp] theorem drawPhase_resValid (d : Nat) :
    (drawPhase d s).resValid = s.resValid := rfl
@[simp] theorem drawPhase_schedule (d : Nat) :
    (drawPhase d s).schedule = s.schedule := rfl
@[simp] theorem drawPhase_rounds (d : Nat) :
    (drawPhase d s).rounds = s.rounds := rfl
@[simp] theorem drawPhase_draws (d : Nat) :
    (drawPhase d s).draws = s.draws + 1 := rfl
@[simp] theorem drawPhase_invocations (d : Nat) :
    (drawPhase d s).invocations = s.invocations := rfl

/-! ### latchSelection -/

@[simp] theorem latchSelection_freq (freq : BitVec 32) :
    (latchSelection freq s).freq = freq := rfl
@[simp] theorem latchSelection_divr (freq : BitVec 32) :
    (latchSelection freq s).divr = (selection freq).divisor := rfl
@[simp] theorem latchSelection_thr (freq : BitVec 32) :
    (latchSelection freq s).thr = BitVec.ofInt 40 (selection freq).threshold := rfl
@[simp] theorem latchSelection_idx (freq : BitVec 32) :
    (latchSelection freq s).idx = BitVec.ofNat 3 (selection freq).idx := rfl
@[simp] theorem latchSelection_seq (freq : BitVec 32) :
    (latchSelection freq s).seq = s.seq := rfl
@[simp] theorem latchSelection_armed (freq : BitVec 32) :
    (latchSelection freq s).armed = s.armed := rfl
@[simp] theorem latchSelection_ctrl (freq : BitVec 32) :
    (latchSelection freq s).ctrl = s.ctrl := rfl
@[simp] theorem latchSelection_cnt (freq : BitVec 32) :
    (latchSelection freq s).cnt = s.cnt := rfl
@[simp] theorem latchSelection_cmp (freq : BitVec 32) :
    (latchSelection freq s).cmp = s.cmp := rfl
@[simp] theorem latchSelection_ien (freq : BitVec 32) :
    (latchSelection freq s).ien = s.ien := rfl
@[simp] theorem latchSelection_iflg (freq : BitVec 32) :
    (latchSelection freq s).iflg = s.iflg := rfl
@[simp] theorem latchSelection_gie (freq : BitVec 32) :
    (latchSelection freq s).gie = s.gie := rfl
@[simp] theorem latchSelection_insvc (freq : BitVec 32) :
    (latchSelection freq s).insvc = s.insvc := rfl
@[simp] theorem latchSelection_psc (freq : BitVec 32) :
    (latchSelection freq s).psc = s.psc := rfl
@[simp] theorem latchSelection_port (freq : BitVec 32) :
    (latchSelection freq s).port = s.port := rfl
@[simp] theorem latchSelection_resValid (freq : BitVec 32) :
    (latchSelection freq s).resValid = s.resValid := rfl
@[simp] theorem latchSelection_schedule (freq : BitVec 32) :
    (latchSelection freq s).schedule = s.schedule := rfl
@[simp] theorem latchSelection_rounds (freq : BitVec 32) :
    (latchSelection freq s).rounds = s.rounds := rfl
@[simp] theorem latchSelection_draws (freq : BitVec 32) :
    (latchSelection freq s).draws = s.draws := rfl
@[simp] theorem latchSelection_invocations (freq : BitVec 32) :
    (latchSelection freq s).invocations = s.invocations := rfl

/-! ### resetEvent -/

@[simp] theorem resetEvent_freq :
    (resetEvent s).freq = Config.freeFreq s.draws := rfl
@[simp] theorem resetEvent_divr :
    (resetEvent s).divr = Config.freeDivr s.draws := rfl
@[simp] theorem resetEvent_thr :
    (resetEvent s).thr = Config.freeThr s.draws := rfl
@[simp] theorem resetEvent_idx :
    (resetEvent s).idx = Config.freeIdx s.draws := rfl
@[simp] theorem resetEvent_seq :
    (resetEvent s).seq = 0 := rfl
@[simp] theorem resetEvent_armed :
    (resetEvent s).armed = false := rfl
@[simp] theorem resetEvent_ctrl :
    (resetEvent s).ctrl = 0 := rfl
@[simp] theorem resetEvent_cnt :
    (resetEvent s).cnt = 0 := rfl
@[simp] theorem resetEvent_cmp :
    (resetEvent s).cmp = 0 := rfl
@[simp] theorem resetEvent_ien :
    (resetEvent s).ien = 0 := rfl
@[simp] theorem resetEvent_iflg :
    (resetEvent s).iflg = 0 := rfl
@[simp] theorem resetEvent_gie :
    (resetEvent s).gie = 0 := rfl
@[simp] theorem resetEvent_insvc :
    (resetEvent s).insvc = false := rfl
@[simp] theorem resetEvent_psc :
    (resetEvent s).psc = Config.freePhase s.draws := rfl
@[simp] theorem resetEvent_port :
    (resetEvent s).port = none := rfl
@[simp] theorem resetEvent_resValid :
    (resetEvent s).resValid = false := rfl
@[simp] theorem resetEvent_schedule :
    (resetEvent s).schedule = s.schedule := rfl
@[simp] theorem resetEvent_rounds :
    (resetEvent s).rounds = s.rounds := rfl
@[simp] theorem resetEvent_draws :
    (resetEvent s).draws = s.draws + 1 := rfl
@[simp] theorem resetEvent_invocations :
    (resetEvent s).invocations = s.invocations := rfl

end Sys2Proof.Machine
end

