-- ==== Sys2Proof/Laws/Ops.lean ====
section
/-! SUPPORT. What each shared operation can do, said once. -/

namespace Sys2Proof.Machine

/-! ### Register access -/

@[simp] theorem readCtrl_writeCtrl (s : State) (v : BitVec 8) :
    readCtrl (writeCtrl s v) = v &&& ctrlUsed := by
  simp [readCtrl, BitVec.and_assoc]

@[simp] theorem readCnt_writeCnt (s : State) (v : BitVec 16) : readCnt (writeCnt s v) = v := rfl

@[simp] theorem readCmp_writeCmp (s : State) (v : BitVec 16) : readCmp (writeCmp s v) = v := rfl

@[simp] theorem readIen_writeIen (s : State) (v : BitVec 8) :
    readIen (writeIen s v) = v &&& cmieMask := by
  simp [readIen, BitVec.and_assoc]

@[simp] theorem readIflg_writeIflg (s : State) (v : BitVec 8) :
    readIflg (writeIflg s v) = v &&& cmfMask := by
  simp [readIflg, BitVec.and_assoc]

theorem ctrl_or_used_of_reading (c v : BitVec 8) (h : v &&& ctrlUsed = v) :
    (c &&& ctrlUsed ||| v) &&& ctrlUsed = (c &&& ctrlUsed) ||| v := by
  rw [BitVec.and_or_distrib_right, BitVec.and_assoc, BitVec.and_self, h]

/-! ### The result word -/

theorem resultWord_getLsbD (divr : BitVec 16) (thr : BitVec 40) (i : Nat) :
    (resultWord divr thr).getLsbD i =
      if i < 40 then thr.getLsbD i else divr.getLsbD (i - 40) := by
  change (divr ++ thr).getLsbD i = _
  rw [BitVec.getLsbD_append]

@[simp] theorem resultWord_divr (divr : BitVec 16) (thr : BitVec 40) :
    (resultWord divr thr).extractLsb' 40 16 = divr := by
  apply BitVec.eq_of_getLsbD_eq
  intro i hi
  simp [resultWord_getLsbD, hi]

@[simp] theorem resultWord_thr (divr : BitVec 16) (thr : BitVec 40) :
    (resultWord divr thr).extractLsb' 0 40 = thr := by
  apply BitVec.eq_of_getLsbD_eq
  intro i hi
  simp [resultWord_getLsbD, hi]

/-! ### Guards -/

theorem commandBar_eq_none (s : State) : commandBar s = none ↔ Ready s := by
  unfold commandBar Ready
  split_ifs with h1 h2 h3 <;> simp_all

/-- Acceptance answers a next state exactly in a ready state, and then the one given. -/
theorem accept_eq_next (s t : State) (k : State → State) :
    accept s k = .next t ↔ Ready s ∧ t = k s := by
  unfold accept
  split
  next r h =>
    have : ¬ Ready s := fun hr => by rw [(commandBar_eq_none s).2 hr] at h; cases h
    simp [this]
  next h => simp [(commandBar_eq_none s).1 h, eq_comm]

theorem accept_of_ready (s : State) (k : State → State) (h : Ready s) :
    accept s k = .next (k s) := (accept_eq_next s (k s) k).2 ⟨h, rfl⟩

theorem accept_of_not_ready (s : State) (k : State → State) (h : ¬ Ready s) :
    ∃ r, accept s k = .refused r := by
  unfold accept
  split
  next r _ => exact ⟨r, rfl⟩
  next hb => exact absurd ((commandBar_eq_none s).1 hb) h

/-- A format F command answers a next state exactly in a ready state with a legal operand. -/
theorem acceptFreq_eq_next (freq : BitVec 32) (s t : State) (k : State → State) :
    acceptFreq freq s k = .next t ↔ freq ≠ 0 ∧ Ready s ∧ t = k s := by
  unfold acceptFreq
  split_ifs with h
  · simp [h]
  · rw [accept_eq_next]
    exact ⟨fun ⟨hr, ht⟩ => ⟨h, hr, ht⟩, fun ⟨_, hr, ht⟩ => ⟨hr, ht⟩⟩

theorem acceptFreq_of_ready (freq : BitVec 32) (s : State) (k : State → State) (hf : freq ≠ 0)
    (h : Ready s) : acceptFreq freq s k = .next (k s) :=
  (acceptFreq_eq_next freq s (k s) k).2 ⟨hf, h, rfl⟩

theorem acceptFreq_of_not_ready (freq : BitVec 32) (s : State) (k : State → State)
    (h : freq = 0 ∨ ¬ Ready s) : ∃ r, acceptFreq freq s k = .refused r := by
  unfold acceptFreq
  split_ifs with hf
  · exact ⟨_, rfl⟩
  · exact accept_of_not_ready s k (h.resolve_left hf)

/-- A micro-step answers a next state exactly when `SEQ` holds its code. -/
theorem atStep_eq_next (c : SeqCode) (s t : State) (k : State → State) :
    atStep c s k = .next t ↔ s.seq = c ∧ t = k s := by
  unfold atStep
  split_ifs with h
  · simp [h, eq_comm]
  · simp [h]

theorem atStep_of_seq (c : SeqCode) (s : State) (k : State → State) (h : s.seq = c) :
    atStep c s k = .next (k s) := (atStep_eq_next c s (k s) k).2 ⟨h, rfl⟩

/-! ### The interrupt -/

theorem deliverable_iff (s : State) :
    s.deliverable = true ↔ s.cmf = true ∧ s.cmie = true ∧ s.gie = 1 ∧ s.insvc = false := by
  unfold State.deliverable State.request
  simp only [Bool.and_eq_true, beq_iff_eq, Bool.not_eq_true', and_assoc]

/-- Taking the interrupt either does nothing or writes the flag, the service bit and the record. -/
theorem deliverInterrupt_cases (s : State) :
    (s.deliverable = false ∧ deliverInterrupt s = s) ∨
    (s.deliverable = true ∧ deliverInterrupt s =
      { s with iflg := 0, insvc := true, invocations := s.invocations + 1 }) := by
  unfold deliverInterrupt
  split_ifs with h
  · refine .inr ⟨h, ?_⟩
    have : readIflg s &&& ~~~cmfMask &&& cmfMask = 0 := by
      rw [BitVec.and_assoc, show (~~~cmfMask &&& cmfMask : BitVec 8) = 0 by decide]
      simp
    simp [writeIflg, this]
  · exact .inl ⟨by simpa using h, rfl⟩

/-! ### The life cycle -/

/-- Armed is `ARMED = 1` with no sequence in progress (R14). -/
theorem phase_eq_armed (s : State) : s.phase = .armed ↔ s.seq = 0 ∧ s.armed = true := by
  unfold State.phase
  split_ifs with h1 h2
  · simp only [false_iff, not_and]
    intro h; rw [h] at h1; simp at h1
  · simpa using h2
  · simpa using h2

end Sys2Proof.Machine
end

