-- ==== Sys2Proof/Laws/Selector.lean ====
section
/-! SUPPORT. The search of the Selector: where it stops, and the bounds of a candidate threshold. -/

namespace Sys2Proof.Machine

/-- Where the search from a position stops: every candidate before is at least `LIMIT`, and this one
is below it or is the last (R81, R82). -/
theorem search_spec (freq : BitVec 32) (rest : List (BitVec 16)) :
    ∀ (i : Nat) (d : BitVec 16), ∃ k : Nat, ∃ e : BitVec 16,
      (d :: rest)[k]? = some e ∧ search freq i d rest = ⟨i + k, e, candidate freq e⟩ ∧
      (∀ j < k, ∀ x, (d :: rest)[j]? = some x → (Config.limit : Int) ≤ candidate freq x) ∧
      (candidate freq e < Config.limit ∨ k = rest.length) := by
  induction rest with
  | nil => intro i d; exact ⟨0, d, by simp, by simp [search], by simp, by simp⟩
  | cons e more ih =>
    intro i d
    by_cases h : candidate freq d < Config.limit
    · exact ⟨0, d, by simp, by simp [search, h], by simp, .inl h⟩
    · obtain ⟨k, x, hx, hs, hbefore, hstop⟩ := ih (i + 1) e
      refine ⟨k + 1, x, by simpa using hx, ?_, ?_, by simpa using hstop⟩
      · rw [search, if_neg h, hs]; congr 1; omega
      · intro j hj y hy
        cases j with
        | zero =>
          obtain rfl : d = y := by simpa using hy
          exact not_lt.1 h
        | succ j => exact hbefore j (by omega) y (by simpa using hy)

theorem candidate_ge_neg_one (freq : BitVec 32) (d : BitVec 16) : -1 ≤ candidate freq d := by
  unfold candidate
  have := Int.natCast_nonneg (Config.fRef * Config.fracScale / (freq.toNat * d.toNat))
  omega

theorem candidate_lt (freq : BitVec 32) (d : BitVec 16) : candidate freq d < 2 ^ 32 := by
  have : Config.fRef * Config.fracScale / (freq.toNat * d.toNat) ≤ 4096000000 :=
    Nat.div_le_self _ _
  unfold candidate; omega

/-- No candidate threshold is lost in the 40-bit field (R80, R88). -/
theorem candidate_toInt (freq : BitVec 32) (d : BitVec 16) :
    (BitVec.ofInt 40 (candidate freq d)).toInt = candidate freq d := by
  have h1 := candidate_ge_neg_one freq d
  have h2 := candidate_lt freq d
  rw [BitVec.toInt_ofInt, Int.bmod_def]
  split <;> omega

end Sys2Proof.Machine
end

