-- ==== Sys2Proof/Laws/Instructions.lean ====
section
/-! SUPPORT. For each instruction, when exec answers a next state and which one, in terms of the
registers. -/

namespace Sys2Proof.Machine

theorem exec_reserved (body : BitVec 62) (s t : State) : exec (.reserved body) s ≠ .next t := by
  simp [exec, execReserved]

theorem exec_select_eq_next (freq : BitVec 32) (s t : State) :
    exec (.select freq) s = .next t ↔
      freq ≠ 0 ∧ Ready s ∧ t = { latchSelection freq s with resValid := true } := by
  change execSelect freq s = _ ↔ _
  unfold execSelect
  exact acceptFreq_eq_next freq s t _

theorem exec_arm_eq_next (d : BitVec 16) (th : BitVec 40) (s t : State) :
    exec (.arm d th) s = .next t ↔
      Ready s ∧ t = { s with divr := d, thr := th, seq := 1, resValid := false } := by
  change execArm d th s = _ ↔ _
  unfold execArm
  exact accept_eq_next s t _

theorem exec_configure_eq_next (freq : BitVec 32) (s t : State) :
    exec (.configure freq) s = .next t ↔
      freq ≠ 0 ∧ Ready s ∧ t = { latchSelection freq s with seq := 1, resValid := false } := by
  change execConfigure freq s = _ ↔ _
  unfold execConfigure
  exact acceptFreq_eq_next freq s t _

/-- A command presented where none is accepted is refused. -/
theorem exec_select_of_not_ready (freq : BitVec 32) (s : State) (h : freq = 0 ∨ ¬ Ready s) :
    ∃ r, exec (.select freq) s = .refused r := acceptFreq_of_not_ready freq s _ h

theorem exec_arm_of_not_ready (d : BitVec 16) (th : BitVec 40) (s : State) (h : ¬ Ready s) :
    ∃ r, exec (.arm d th) s = .refused r := by
  change ∃ r, execArm d th s = .refused r
  unfold execArm
  exact accept_of_not_ready s _ h

theorem exec_configure_of_not_ready (freq : BitVec 32) (s : State) (h : freq = 0 ∨ ¬ Ready s) :
    ∃ r, exec (.configure freq) s = .refused r := acceptFreq_of_not_ready freq s _ h

theorem exec_idle_eq_next (s t : State) : exec .idle s = .next t ↔ s.seq = 0 ∧ t = s := by
  change execIdle s = _ ↔ _
  unfold execIdle
  exact atStep_eq_next 0 s t _

theorem exec_m1_eq_next (s t : State) :
    exec .m1 s = .next t ↔ s.seq = 1 ∧ t = { s with gie := 0, seq := 2 } := by
  change execM1 s = _ ↔ _
  unfold execM1
  exact atStep_eq_next 1 s t _

theorem exec_m2_eq_next (s t : State) :
    exec .m2 s = .next t ↔ s.seq = 2 ∧ t = { s with ctrl := 0, cnt := 0, seq := 3 } := by
  change execM2 s = _ ↔ _
  unfold execM2
  exact atStep_eq_next 2 s t _

theorem exec_m3_eq_next (s t : State) :
    exec .m3 s = .next t ↔
      s.seq = 3 ∧ t = { s with cmp := trunc16 (thresholdOf s.thr), seq := 4 } := by
  change execM3 s = _ ↔ _
  unfold execM3
  exact atStep_eq_next 3 s t _

theorem exec_m4_eq_next (s t : State) :
    exec .m4 s = .next t ↔
      s.seq = 4 ∧ t = { s with ctrl := (s.ctrl &&& ctrlUsed) ||| ctcMask, seq := 5 } := by
  change execM4 s = _ ↔ _
  unfold execM4
  rw [atStep_eq_next]
  simp only [writeCtrl, readCtrl, ctrl_or_used_of_reading s.ctrl ctcMask (by decide)]

/-- The value M5 leaves in `CTRL`. -/
theorem m5_ctrl (s : State) :
    (readCtrl s ||| (csmap s.divr).setWidth 8) &&& ctrlUsed =
      (s.ctrl &&& ctrlUsed) ||| (csmap s.divr).setWidth 8 :=
  ctrl_or_used_of_reading s.ctrl _ (by
    generalize csmap s.divr = c
    revert c; decide)

/-- Starting the clock changes at most the prescaler phase and the count of draws. -/
theorem startClock_cases (c : BitVec 3) (s : State) :
    ((c = 0 ∨ divOf s.cs = none) ∧ startClock c s = s) ∨
    (c ≠ 0 ∧ ∃ d, divOf s.cs = some d ∧ startClock c s =
      { s with psc := BitVec.ofNat 10 ((Config.freePhase s.draws).toNat % d),
               draws := s.draws + 1 }) := by
  unfold startClock
  split_ifs with h
  · exact .inl ⟨.inl h, rfl⟩
  · split
    next d hd => exact .inr ⟨h, d, hd, rfl⟩
    next hn => exact .inl ⟨.inr hn, rfl⟩

theorem exec_m5_eq_next (s t : State) :
    exec .m5 s = .next t ↔
      s.seq = 5 ∧ t = { startClock (csmap s.divr)
        { s with ctrl := (s.ctrl &&& ctrlUsed) ||| (csmap s.divr).setWidth 8 } with seq := 6 } := by
  change execM5 s = _ ↔ _
  unfold execM5
  rw [atStep_eq_next]
  simp only [writeCtrl, m5_ctrl]

theorem exec_m6_eq_next (s t : State) :
    exec .m6 s = .next t ↔ s.seq = 6 ∧ t = { s with ien := cmieMask, seq := 7 } := by
  have h : (readIen s ||| cmieMask) &&& cmieMask = cmieMask := by
    rw [readIen, BitVec.and_or_distrib_right, BitVec.and_self, BitVec.and_assoc, BitVec.and_self]
    ext i hi; simp only [BitVec.getElem_or, BitVec.getElem_and]; cases cmieMask[i] <;> simp
  change execM6 s = _ ↔ _
  unfold execM6
  rw [atStep_eq_next]
  simp only [writeIen, h]

theorem exec_m7_eq_next (s t : State) :
    exec .m7 s = .next t ↔
      s.seq = 7 ∧ t = { discardWorking { s with gie := 1 } with armed := true, seq := 0 } := by
  change execM7 s = _ ↔ _
  unfold execM7
  exact atStep_eq_next 7 s t _

/-- Nothing faults (R120). -/
theorem outcome_next_or_refused (o : Result) : (∃ t, o = .next t) ∨ ∃ r, o = .refused r := by
  cases o with
  | next t => exact .inl ⟨t, rfl⟩
  | fault f => cases f
  | refused r => exact .inr ⟨r, rfl⟩

/-- Starting the clock writes no field but the prescaler phase and the count of draws. -/
theorem startClock_frame (c : BitVec 3) (s : State) :
    ∃ p n, startClock c s = { s with psc := p, draws := n } := by
  rcases startClock_cases c s with ⟨_, h⟩ | ⟨_, d, _, h⟩
  · exact ⟨s.psc, s.draws, h⟩
  · exact ⟨_, _, h⟩

end Sys2Proof.Machine
end

