-- ==== Sys2Proof/Laws/Invariant.lean ====
section
/-! SUPPORT. What a state of the invariant looks like: the sequence runs unarmed, and the control
register holds one of seven values. -/

namespace Sys2Proof.Machine

theorem Consistent.armed_of_seq {s : State} (h : Consistent s) (hq : s.seq ≠ 0) :
    s.armed = false := by
  cases ha : s.armed
  · rfl
  · exact absurd (h.armed_idle ha) hq

theorem Consistent.insvc_of_armed {s : State} (h : Consistent s) (ha : s.armed = false) :
    s.insvc = false := by
  cases hi : s.insvc
  · rfl
  · exact absurd ((h.insvc_armed hi).symm.trans ha) (by simp)

theorem seq_ne_zero_of_le {c : SeqCode} {n : Nat} (hn : 0 < n) (h : n ≤ c.toNat) : c ≠ 0 := by
  rintro rfl
  simp at h
  omega

/-- Every value `CTRL` takes in a state of the invariant. -/
theorem Consistent.ctrl_cases {s : State} (h : Consistent s) :
    s.ctrl = 0 ∨ s.ctrl ∈ [0x08#8, 0x09, 0x0A, 0x0B, 0x0C, 0x0D] := by
  cases ha : s.armed with
  | true => exact .inr (h.ctrl_final (.inl ha))
  | false =>
    rcases Nat.lt_or_ge s.seq.toNat 5 with hq | hq
    · exact .inl (h.ctrl_zero ha (by omega))
    · rcases Nat.lt_or_ge 5 s.seq.toNat with hq' | hq'
      · exact .inr (h.ctrl_final (.inr hq'))
      · have : s.seq = 5 := BitVec.eq_of_toNat_eq (by simp; omega)
        rw [h.ctrl_mode this]; simp

end Sys2Proof.Machine
end

