-- ==== Sys2Proof/Laws/PerInstr.lean ====
section
/-! SUPPORT. Statements made for each instruction: the encoding of an instruction selects its own
row of the opcode table (spec 30_encoding.md R61, R65). -/

namespace Sys2Proof.Laws

/-- The rows of command words do not overlap (R61). -/
theorem command_rows_disjoint :
    [rowReserved, rowSelect, rowArm, rowConfigure].Pairwise
      (fun a b => a.pattern &&& (a.mask &&& b.mask) ≠ b.pattern &&& (a.mask &&& b.mask)) := by
  decide

/-- What is encoded has the width of the instruction's row and, under its mask, its pattern. -/
def RowMatch.Statement (i : Instr) : Prop :=
  match encode i with
  | .command w => (rowOf i).width = 64 ∧ (rowOf i).selects w = true
  | .sequencer c => (rowOf i).width = 3 ∧ c.toNat &&& (rowOf i).mask = (rowOf i).pattern

theorem RowMatch.reserved (body : BitVec 62) : RowMatch.Statement (.reserved body) :=
  ⟨rfl, rowReserved_selects_encodeReserved body⟩

theorem RowMatch.select (freq : BitVec 32) : RowMatch.Statement (.select freq) :=
  ⟨rfl, rowSelect_selects_encodeF freq⟩

theorem RowMatch.arm (divisor : BitVec 16) (thresh : BitVec 40) :
    RowMatch.Statement (.arm divisor thresh) :=
  ⟨rfl, rowArm_selects_encodeA divisor thresh⟩

theorem RowMatch.configure (freq : BitVec 32) : RowMatch.Statement (.configure freq) :=
  ⟨rfl, rowConfigure_selects_encodeF freq⟩

theorem RowMatch.idle : RowMatch.Statement .idle := ⟨rfl, rfl⟩
theorem RowMatch.m1 : RowMatch.Statement .m1 := ⟨rfl, rfl⟩
theorem RowMatch.m2 : RowMatch.Statement .m2 := ⟨rfl, rfl⟩
theorem RowMatch.m3 : RowMatch.Statement .m3 := ⟨rfl, rfl⟩
theorem RowMatch.m4 : RowMatch.Statement .m4 := ⟨rfl, rfl⟩
theorem RowMatch.m5 : RowMatch.Statement .m5 := ⟨rfl, rfl⟩
theorem RowMatch.m6 : RowMatch.Statement .m6 := ⟨rfl, rfl⟩
theorem RowMatch.m7 : RowMatch.Statement .m7 := ⟨rfl, rfl⟩

end Sys2Proof.Laws
end

