-- ==== Sys2Proof/Laws/Timer.lean ====
section
/-! SUPPORT. The clock-select codes, the tick and the reference cycle: what each can do. -/

namespace Sys2Proof.Machine

/-- The codes that select a clock, with their divisors (R67). -/
theorem divOf_eq_some (c : BitVec 3) (d : Nat) :
    divOf c = some d ↔
      (c = 1 ∧ d = 1) ∨ (c = 2 ∧ d = 8) ∨ (c = 3 ∧ d = 64) ∨ (c = 4 ∧ d = 256) ∨
        (c = 5 ∧ d = 1024) := by
  have h : ∀ c : BitVec 3, divOf c =
      if c = 1 then some 1 else if c = 2 then some 8 else if c = 3 then some 64
      else if c = 4 then some 256 else if c = 5 then some 1024 else none := by decide
  rw [h]
  split_ifs with h1 h2 h3 h4 h5 <;> simp_all [eq_comm]

theorem divOf_pos (c : BitVec 3) (d : Nat) (h : divOf c = some d) : 0 < d ∧ d ≤ 1024 := by
  rcases (divOf_eq_some c d).1 h with ⟨_, rfl⟩ | ⟨_, rfl⟩ | ⟨_, rfl⟩ | ⟨_, rfl⟩ | ⟨_, rfl⟩ <;> omega

@[simp] theorem divOf_zero : divOf 0#3 = none := by decide

theorem divOf_ne_zero (c : BitVec 3) (d : Nat) (h : divOf c = some d) : c ≠ 0 := by
  rintro rfl
  exact absurd (divOf_zero.symm.trans h) (by simp)

/-- The writes of a tick, in terms of the registers. -/
theorem tickCounter_eq (s : State) :
    tickCounter s =
      if s.cnt = s.cmp then { s with cnt := 0, iflg := cmfMask } else { s with cnt := s.cnt + 1 } := by
  unfold tickCounter
  split_ifs with h
  · have hm : (readIflg s ||| cmfMask) &&& cmfMask = cmfMask := by
      rw [readIflg, BitVec.and_or_distrib_right, BitVec.and_self, BitVec.and_assoc,
        BitVec.and_self]
      ext i hi; simp only [BitVec.getElem_or, BitVec.getElem_and]; cases cmfMask[i] <;> simp
    simp [writeIflg, writeCnt, hm]
  · rfl

theorem RunsAt.cs_ne_zero {s : State} {d : Nat} (h : RunsAt s d) : s.cs ≠ 0 :=
  divOf_ne_zero _ _ h.1

theorem tickTurn_of_stopped (s : State) (h : s.cs = 0) : tickTurn s = .next s := if_pos h

theorem tickTurn_of_runsAt (s : State) (d : Nat) (h : RunsAt s d) :
    tickTurn s = .next (tickCounter s) := by
  rw [tickTurn, if_neg h.cs_ne_zero, h.1]
  exact if_pos h.2

/-- A tick turn answers a next state when the counter is stopped, unchanged, or when it runs. -/
theorem tickTurn_eq_next (s t : State) :
    tickTurn s = .next t ↔ (s.cs = 0 ∧ t = s) ∨ (∃ d, RunsAt s d ∧ t = tickCounter s) := by
  constructor
  · intro h
    by_cases h0 : s.cs = 0
    · rw [tickTurn_of_stopped s h0, Host.Outcome.next.injEq] at h
      exact .inl ⟨h0, h.symm⟩
    · rw [tickTurn, if_neg h0] at h
      split at h
      next => cases h
      next d hd =>
        split_ifs at h with hc
        exact .inr ⟨d, ⟨hd, hc⟩, (Host.Outcome.next.inj h).symm⟩
  · rintro (⟨h0, rfl⟩ | ⟨d, hr, rfl⟩)
    · exact tickTurn_of_stopped _ h0
    · exact tickTurn_of_runsAt s d hr

theorem cycleTurn_of_stopped (s : State) (h : s.cs = 0) : cycleTurn s = .next s := if_pos h

theorem cycleTurn_advances (s : State) (d : Nat) (h : divOf s.cs = some d)
    (hp : s.psc.toNat + 1 ≠ d) : cycleTurn s = .next { s with psc := s.psc + 1 } := by
  rw [cycleTurn, if_neg (divOf_ne_zero _ _ h), h]
  exact if_neg hp

theorem cycleTurn_ticks (s : State) (d : Nat) (h : RunsAt s d) (hp : s.psc.toNat + 1 = d) :
    cycleTurn s = .next (tickCounter { s with psc := 0 }) := by
  rw [cycleTurn, if_neg h.cs_ne_zero, h.1]
  exact (if_pos hp).trans (tickTurn_of_runsAt { s with psc := 0 } d h)

/-- A reference cycle answers a next state when the counter is stopped, when it only advances the
phase, or when it completes a tick. -/
theorem cycleTurn_eq_next (s t : State) :
    cycleTurn s = .next t ↔
      (s.cs = 0 ∧ t = s) ∨
      (∃ d, divOf s.cs = some d ∧ s.psc.toNat + 1 ≠ d ∧ t = { s with psc := s.psc + 1 }) ∨
      (∃ d, RunsAt s d ∧ s.psc.toNat + 1 = d ∧ t = tickCounter { s with psc := 0 }) := by
  constructor
  · intro h
    by_cases h0 : s.cs = 0
    · rw [cycleTurn_of_stopped s h0, Host.Outcome.next.injEq] at h
      exact .inl ⟨h0, h.symm⟩
    · rw [cycleTurn, if_neg h0] at h
      split at h
      next => cases h
      next d hd =>
        split_ifs at h with hp
        · rcases (tickTurn_eq_next _ _).1 h with ⟨h1, _⟩ | ⟨e, ⟨he, hc⟩, ht⟩
          · exact absurd h1 h0
          · exact .inr (.inr ⟨d, ⟨hd, hc⟩, hp, ht⟩)
        · exact .inr (.inl ⟨d, hd, hp, (Host.Outcome.next.inj h).symm⟩)
  · rintro (⟨h0, rfl⟩ | ⟨d, hd, hp, rfl⟩ | ⟨d, hr, hp, rfl⟩)
    · exact cycleTurn_of_stopped _ h0
    · exact cycleTurn_advances s d hd hp
    · exact cycleTurn_ticks s d hr hp

/-- The clock-select code of every divisor (R23, R67). -/
theorem csmap_eq_ite (d : BitVec 16) :
    csmap d = if d = 1 then 1 else if d = 8 then 2 else if d = 64 then 3 else if d = 256 then 4
      else if d = 1024 then 5 else 0 := by
  unfold csmap csTable
  simp only [List.lookup]
  split_ifs with a b c e f
  · simp [a]
  · simp [b]
  · simp [c]
  · simp [e]
  · simp [f]
  · rw [show (d == 1) = false by simpa using a, show (d == 8) = false by simpa using b,
      show (d == 64) = false by simpa using c, show (d == 256) = false by simpa using e,
      show (d == 1024) = false by simpa using f]

end Sys2Proof.Machine
end

