-- ==== Sys2Proof/Laws/Turns.lean ====
section
/-! SUPPORT. The turns to come: what a scheduled turn is, and that every free round has a turn of every
agent (spec 20_memory.md R46). -/

namespace Sys2Proof.Machine

theorem turnsToCome_cons (s : State) (t : Turn) (ts : List Turn) (h : s.schedule = t :: ts) :
    turnsToCome s = t :: ts := by
  simp [turnsToCome, h]

theorem turnsToCome_nil (s : State) (h : s.schedule = []) :
    turnsToCome s = fairRound (Config.freeRound s.rounds) := by
  simp [turnsToCome, h]

@[simp] theorem nextTurn_cons (s : State) (t : Turn) (ts : List Turn) (h : s.schedule = t :: ts) :
    nextTurn s = t := by
  simp [nextTurn, turnsToCome_cons s t ts h]

/-- A scheduled turn is taken off the schedule and nothing else changes. -/
theorem dropTurn_cons (s : State) (t : Turn) (ts : List Turn) (h : s.schedule = t :: ts) :
    dropTurn s = { s with schedule := ts } := by
  simp [dropTurn, turnsToCome_cons s t ts h, h]

/-- What serves a turn is that turn, or a reference cycle for a tick. -/
theorem serves_iff (r : List Turn) (t : Turn) :
    serves r t = true ↔ t ∈ r ∨ (t = .tick ∧ Turn.cycle ∈ r) := by
  simp [serves]

/-- Every agent has a turn in a round. -/
theorem fairRound_serves (r : List Turn) (t : Turn) (h : t ∈ agentTurns) :
    t ∈ fairRound r ∨ (t = .tick ∧ Turn.cycle ∈ fairRound r) := by
  unfold fairRound
  by_cases hs : serves r t = true
  · rcases (serves_iff r t).1 hs with hm | ⟨ht, hm⟩
    · exact .inl (List.mem_append_left _ hm)
    · exact .inr ⟨ht, List.mem_append_left _ hm⟩
  · exact .inl (List.mem_append_right _ (List.mem_filter.2 ⟨h, by simpa using hs⟩))

/-- A round that already serves every agent is taken as it stands. -/
theorem fairRound_of_serves (r : List Turn) (h : ∀ t ∈ agentTurns, serves r t = true) :
    fairRound r = r := by
  have : agentTurns.filter (fun t => !serves r t) = [] :=
    List.filter_eq_nil_iff.2 fun t ht => by simp [h t ht]
  rw [fairRound, this, List.append_nil]

theorem turnsToCome_ne_nil (s : State) : turnsToCome s ≠ [] := by
  cases h : s.schedule with
  | nil =>
    rw [turnsToCome_nil s h]
    rcases fairRound_serves (Config.freeRound s.rounds) .foreground (by decide) with hm | ⟨hm, _⟩
    · exact List.ne_nil_of_mem hm
    · cases hm
  | cons t ts => rw [turnsToCome_cons s t ts h]; simp

/-- The turns to come are the next one and those left when it is taken. -/
theorem turnsToCome_eq (s : State) : turnsToCome s = nextTurn s :: (dropTurn s).schedule := by
  rw [dropTurn_schedule, nextTurn]
  cases h : turnsToCome s with
  | nil => exact absurd h (turnsToCome_ne_nil s)
  | cons t ts => rfl

end Sys2Proof.Machine
end

