-- ==== Sys2Proof/Laws/Step.lean ====
section
/-! SUPPORT. What one step can do, said once: by the turn, and for the foreground by what it
fetches. -/

namespace Sys2Proof.Machine

theorem decodeSeq_cases (c : SeqCode) :
    (c = 0 ∧ decodeSeq c = .idle) ∨ (c = 1 ∧ decodeSeq c = .m1) ∨ (c = 2 ∧ decodeSeq c = .m2) ∨
    (c = 3 ∧ decodeSeq c = .m3) ∨ (c = 4 ∧ decodeSeq c = .m4) ∨ (c = 5 ∧ decodeSeq c = .m5) ∨
    (c = 6 ∧ decodeSeq c = .m6) ∨ (c = 7 ∧ decodeSeq c = .m7) := by
  revert c; decide

/-- A word on the port decodes to a command or to the reserved row, never to a step of the
sequence. -/
theorem decodeCommand_cases (w : CmdWord) (i : Instr) (h : decodeCommand w = .ok i) :
    (∃ b, i = .reserved b) ∨ (∃ f, i = .select f) ∨ (∃ d th, i = .arm d th) ∨
      ∃ f, i = .configure f := by
  unfold decodeCommand at h
  split_ifs at h <;> simp only [Except.ok.injEq] at h <;> subst h <;> simp

/-- The next states of a step, by the turn. -/
theorem step_eq_next (s t : State) (h : step s = .next t) :
    (nextTurn s = .foreground ∧ ∃ i, decode (fetch s) = .ok i ∧
      exec i (clearPort (dropTurn s)) = .next t) ∨
    (∃ w, nextTurn s = .present w ∧ t = { dropTurn s with port := some w }) ∨
    (nextTurn s = .tick ∧ tickTurn (dropTurn s) = .next t) ∨
    (nextTurn s = .cycle ∧ cycleTurn (dropTurn s) = .next t) ∨
    (nextTurn s = .deliver ∧ t = deliverInterrupt (dropTurn s)) ∨
    (nextTurn s = .ret ∧ t = returnFromInterrupt (dropTurn s)) ∨
    (nextTurn s = .reset ∧ t = resetEvent (dropTurn s)) := by
  unfold step at h
  generalize hn : nextTurn s = n at h
  cases n with
  | foreground =>
    refine .inl ⟨rfl, ?_⟩
    simp only [runTurn, foregroundTurn] at h
    have hf : fetch (dropTurn s) = fetch s := rfl
    rw [hf] at h
    split at h
    next i hi => exact ⟨i, hi, h⟩
    next => cases h
  | present w => simp only [runTurn, Host.Outcome.next.injEq] at h; simp [← h]
  | tick => simpa [runTurn] using h
  | cycle => simpa [runTurn] using h
  | deliver => simp only [runTurn, Host.Outcome.next.injEq] at h; simp [← h]
  | ret => simp only [runTurn, Host.Outcome.next.injEq] at h; simp [← h]
  | reset => simp only [runTurn, Host.Outcome.next.injEq] at h; simp [← h]

/-- The next states of a foreground turn, instruction by instruction: a command accepted from the
port, or the step `SEQ` names. -/
theorem foreground_next (s t : State) (i : Instr) (hd : decode (fetch s) = .ok i)
    (h : exec i (clearPort (dropTurn s)) = .next t) :
    ((∃ w, s.port = some w) ∧ Ready s ∧
      ((∃ f, f ≠ 0 ∧ t = { latchSelection f (clearPort (dropTurn s)) with resValid := true }) ∨
       (∃ d th, t = { clearPort (dropTurn s) with
          divr := d, thr := th, seq := 1, resValid := false }) ∨
       (∃ f, f ≠ 0 ∧ t = { latchSelection f (clearPort (dropTurn s)) with
          seq := 1, resValid := false }))) ∨
    (s.port = none ∧ i = decodeSeq s.seq) := by
  unfold fetch at hd
  split at hd
  next w hw =>
    refine .inl ⟨⟨w, hw⟩, ?_⟩
    rcases decodeCommand_cases w i hd with ⟨b, rfl⟩ | ⟨f, rfl⟩ | ⟨d, th, rfl⟩ | ⟨f, rfl⟩
    · exact absurd h (exec_reserved _ _ _)
    · obtain ⟨hf, hr, rfl⟩ := (exec_select_eq_next _ _ _).1 h
      exact ⟨hr, .inl ⟨f, hf, rfl⟩⟩
    · obtain ⟨hr, rfl⟩ := (exec_arm_eq_next _ _ _ _).1 h
      exact ⟨hr, .inr (.inl ⟨d, th, rfl⟩)⟩
    · obtain ⟨hf, hr, rfl⟩ := (exec_configure_eq_next _ _ _).1 h
      exact ⟨hr, .inr (.inr ⟨f, hf, rfl⟩)⟩
  next hw =>
    refine .inr ⟨hw, ?_⟩
    simpa [decode, eq_comm] using hd

/-- Every way a foreground turn can answer a next state: a command of each kind, IDLE, and each
micro-step, with its guard and its writes. -/
theorem foreground_step_cases (s t : State) (hn : nextTurn s = .foreground)
    (h : step s = .next t) :
    ((∃ w, s.port = some w) ∧ Ready s ∧
      ((∃ f, f ≠ 0 ∧ t = { latchSelection f (clearPort (dropTurn s)) with resValid := true }) ∨
       (∃ d th, t = { clearPort (dropTurn s) with
          divr := d, thr := th, seq := 1, resValid := false }) ∨
       (∃ f, f ≠ 0 ∧ t = { latchSelection f (clearPort (dropTurn s)) with
          seq := 1, resValid := false }))) ∨
    (s.port = none ∧ (
      (s.seq = 0 ∧ t = clearPort (dropTurn s)) ∨
      (s.seq = 1 ∧ t = { clearPort (dropTurn s) with gie := 0, seq := 2 }) ∨
      (s.seq = 2 ∧ t = { clearPort (dropTurn s) with ctrl := 0, cnt := 0, seq := 3 }) ∨
      (s.seq = 3 ∧ t = { clearPort (dropTurn s) with
        cmp := trunc16 (thresholdOf s.thr), seq := 4 }) ∨
      (s.seq = 4 ∧ t = { clearPort (dropTurn s) with
        ctrl := (s.ctrl &&& ctrlUsed) ||| ctcMask, seq := 5 }) ∨
      (s.seq = 5 ∧ t = { startClock (csmap s.divr) { clearPort (dropTurn s) with
        ctrl := (s.ctrl &&& ctrlUsed) ||| (csmap s.divr).setWidth 8 } with seq := 6 }) ∨
      (s.seq = 6 ∧ t = { clearPort (dropTurn s) with ien := cmieMask, seq := 7 }) ∨
      (s.seq = 7 ∧ t = { discardWorking { clearPort (dropTurn s) with gie := 1 } with
        armed := true, seq := 0 }))) := by
  rcases step_eq_next s t h with
    ⟨_, i, hi, he⟩ | ⟨_, hw, _⟩ | ⟨hw, _⟩ | ⟨hw, _⟩ | ⟨hw, _⟩ | ⟨hw, _⟩ | ⟨hw, _⟩
  · rcases foreground_next s t i hi he with h | ⟨hp, rfl⟩
    · exact .inl h
    · refine .inr ⟨hp, ?_⟩
      rcases decodeSeq_cases s.seq with ⟨h0, h1⟩ | ⟨h0, h1⟩ | ⟨h0, h1⟩ | ⟨h0, h1⟩ | ⟨h0, h1⟩ |
        ⟨h0, h1⟩ | ⟨h0, h1⟩ | ⟨h0, h1⟩ <;> rw [h1] at he
      · exact .inl ⟨h0, ((exec_idle_eq_next _ _).1 he).2⟩
      · exact .inr (.inl ⟨h0, ((exec_m1_eq_next _ _).1 he).2⟩)
      · exact .inr (.inr (.inl ⟨h0, ((exec_m2_eq_next _ _).1 he).2⟩))
      · exact .inr (.inr (.inr (.inl ⟨h0, ((exec_m3_eq_next _ _).1 he).2⟩)))
      · exact .inr (.inr (.inr (.inr (.inl ⟨h0, ((exec_m4_eq_next _ _).1 he).2⟩))))
      · exact .inr (.inr (.inr (.inr (.inr (.inl ⟨h0, ((exec_m5_eq_next _ _).1 he).2⟩)))))
      · exact .inr (.inr (.inr (.inr (.inr (.inr (.inl
          ⟨h0, ((exec_m6_eq_next _ _).1 he).2⟩))))))
      · exact .inr (.inr (.inr (.inr (.inr (.inr (.inr
          ⟨h0, ((exec_m7_eq_next _ _).1 he).2⟩))))))
  all_goals (rw [hn] at hw; cases hw)

/-- What a turn of another agent than the foreground leaves alone, reset apart. -/
theorem hardware_step_frame (s t : State) (hn : nextTurn s ≠ .foreground)
    (hr : nextTurn s ≠ .reset) (h : step s = .next t) :
    t.seq = s.seq ∧ t.ctrl = s.ctrl ∧ t.cmp = s.cmp ∧ t.ien = s.ien ∧ t.gie = s.gie ∧
    t.armed = s.armed ∧
    (t.iflg ≠ s.iflg → nextTurn s = .tick ∨ nextTurn s = .cycle ∨ nextTurn s = .deliver) ∧
    (t.cnt ≠ s.cnt → nextTurn s = .tick ∨ nextTurn s = .cycle) := by
  rcases step_eq_next s t h with
    ⟨hf, _⟩ | ⟨w, _, rfl⟩ | ⟨hw, ht⟩ | ⟨hw, ht⟩ | ⟨hd, rfl⟩ | ⟨_, rfl⟩ | ⟨hw, _⟩
  · exact absurd hf hn
  · simp
  · rcases (tickTurn_eq_next _ _).1 ht with ⟨_, rfl⟩ | ⟨d, _, rfl⟩
    · simp
    · rw [tickCounter_eq]; split_ifs <;> simp [hw]
  · rcases (cycleTurn_eq_next _ _).1 ht with ⟨_, rfl⟩ | ⟨d, _, _, rfl⟩ | ⟨d, _, _, rfl⟩
    · simp
    · simp
    · rw [tickCounter_eq]; split_ifs <;> simp [hw]
  · rcases deliverInterrupt_cases (dropTurn s) with ⟨_, h⟩ | ⟨_, h⟩ <;> rw [h] <;> simp [hd]
  · simp
  · exact absurd hw hr

/-- Every step takes one turn off the turns to come and leaves the others. -/
theorem step_schedule (s t : State) (h : step s = .next t) :
    t.schedule = (dropTurn s).schedule ∧ t.rounds = (dropTurn s).rounds := by
  rcases step_eq_next s t h with
    ⟨hf, _⟩ | ⟨w, _, rfl⟩ | ⟨_, ht⟩ | ⟨_, ht⟩ | ⟨_, rfl⟩ | ⟨_, rfl⟩ | ⟨_, rfl⟩
  · rcases foreground_step_cases s t hf h with
      ⟨_, _, ⟨f, _, rfl⟩ | ⟨d, th, rfl⟩ | ⟨f, _, rfl⟩⟩ | ⟨_, h | h | h | h | h | h | h | h⟩
    · exact ⟨rfl, rfl⟩
    · exact ⟨rfl, rfl⟩
    · exact ⟨rfl, rfl⟩
    all_goals obtain ⟨_, rfl⟩ := h
    all_goals try exact ⟨rfl, rfl⟩
    obtain ⟨p, n, e⟩ := startClock_frame (csmap s.divr) { clearPort (dropTurn s) with
      ctrl := (s.ctrl &&& ctrlUsed) ||| (csmap s.divr).setWidth 8 }
    rw [e]; exact ⟨rfl, rfl⟩
  · simp
  · rcases (tickTurn_eq_next _ _).1 ht with ⟨_, rfl⟩ | ⟨d, _, rfl⟩
    · simp
    · rw [tickCounter_eq]; split_ifs <;> simp
  · rcases (cycleTurn_eq_next _ _).1 ht with ⟨_, rfl⟩ | ⟨d, _, _, rfl⟩ | ⟨d, _, _, rfl⟩
    · simp
    · simp
    · rw [tickCounter_eq]; split_ifs <;> simp
  · rcases deliverInterrupt_cases (dropTurn s) with ⟨_, h⟩ | ⟨_, h⟩ <;> rw [h] <;>
      exact ⟨rfl, rfl⟩
  · simp
  · simp

/-- A step invokes the callback only by an enabled delivery. -/
theorem step_invocations (s t : State) (h : step s = .next t) :
    t.invocations = s.invocations ∨
    (nextTurn s = .deliver ∧ s.deliverable = true ∧
      t = { dropTurn s with iflg := 0, insvc := true, invocations := s.invocations + 1 }) := by
  rcases step_eq_next s t h with
    ⟨hf, _⟩ | ⟨w, _, rfl⟩ | ⟨_, ht⟩ | ⟨_, ht⟩ | ⟨hd, rfl⟩ | ⟨_, rfl⟩ | ⟨_, rfl⟩
  · left
    rcases foreground_step_cases s t hf h with
      ⟨_, _, ⟨f, _, rfl⟩ | ⟨d, th, rfl⟩ | ⟨f, _, rfl⟩⟩ | ⟨_, h | h | h | h | h | h | h | h⟩
    · rfl
    · rfl
    · rfl
    all_goals obtain ⟨_, rfl⟩ := h
    all_goals try rfl
    obtain ⟨p, n, e⟩ := startClock_frame (csmap s.divr) { clearPort (dropTurn s) with
      ctrl := (s.ctrl &&& ctrlUsed) ||| (csmap s.divr).setWidth 8 }
    rw [e]; rfl
  · simp
  · rcases (tickTurn_eq_next _ _).1 ht with ⟨_, rfl⟩ | ⟨d, _, rfl⟩
    · simp
    · rw [tickCounter_eq]; split_ifs <;> simp
  · rcases (cycleTurn_eq_next _ _).1 ht with ⟨_, rfl⟩ | ⟨d, _, _, rfl⟩ | ⟨d, _, _, rfl⟩
    · simp
    · simp
    · rw [tickCounter_eq]; split_ifs <;> simp
  · rcases deliverInterrupt_cases (dropTurn s) with ⟨_, h⟩ | ⟨hdd, h⟩ <;> rw [h]
    · left; rfl
    · right; exact ⟨hd, hdd, rfl⟩
  · simp
  · simp

end Sys2Proof.Machine
end

