-- ==== Sys2Proof/Laws/Run.lean ====
section
/-! SUPPORT. Runs of several steps, one step at a time. -/

namespace Sys2Proof.Machine

theorem run_zero (s : State) : Host.Core.run Sys2Proof.core 0 s = .next s := rfl

/-- A run whose first step answers a next state goes on from there. -/
theorem run_succ_of_next (n : Nat) (s t : State) (h : step s = .next t) :
    Host.Core.run Sys2Proof.core (n + 1) s = Host.Core.run Sys2Proof.core n t := by
  have hs : Sys2Proof.core.step s = .next t := h
  simp only [Host.Core.run, hs]

/-- A run that answers a next state has a first step that does. -/
theorem run_succ_eq_next (n : Nat) (s t : State)
    (h : Host.Core.run Sys2Proof.core (n + 1) s = .next t) :
    ∃ u, step s = .next u ∧ Host.Core.run Sys2Proof.core n u = .next t := by
  rcases outcome_next_or_refused (step s) with ⟨u, hu⟩ | ⟨r, hr⟩
  · exact ⟨u, hu, (run_succ_of_next n s u hu).symm.trans h⟩
  · have hs : Sys2Proof.core.step s = .refused r := hr
    simp only [Host.Core.run, hs, reduceCtorEq] at h

end Sys2Proof.Machine
end

