-- ==== Sys2Proof/WellFormed.lean ====
section
/-! DEFINITION. Which instructions the spec gives an operation: not the reserved row, and no
format F operand of zero (spec 30_encoding.md R69, R72). -/

namespace Sys2Proof

/-- A legal frequency operand: "format F with `FREQ = 0`" is an illegal operand (R69, R83). -/
def Instr.freqLegal (freq : BitVec 32) : Bool := freq != 0

/-- The instruction is one "of a non-reserved row" with a legal operand (R72). -/
def Instr.wellFormed : Instr → Bool
  | .reserved _ => false
  | .select freq => Instr.freqLegal freq
  | .arm _ _ => true
  | .configure freq => Instr.freqLegal freq
  | .idle => true
  | .m1 => true
  | .m2 => true
  | .m3 => true
  | .m4 => true
  | .m5 => true
  | .m6 => true
  | .m7 => true

end Sys2Proof
end

