-- ==== Sys2Proof/Tests/Slice0.lean ====
section
/-! SUPPORT. Tests: words written out from the encodings of spec 30_encoding.md, single steps whose
results are those of spec 95_test_vectors.md, and for each statement with hypotheses a witness that
meets them. -/

open Sys2Proof Sys2Proof.Machine Sys2Proof.Claims

namespace Sys2Proof.Tests

/-! ### Helpers -/

/-- The outcome is a next state with the given property. -/
def nextWith (r : Result) (p : State → Bool) : Bool :=
  match r with
  | .next t => p t
  | _ => false

/-- The outcome is a refusal for the given reason. -/
def refusedAs (r : Result) (why : Refusal) : Bool :=
  match r with
  | .refused x => x == why
  | _ => false

/-- The state after reset with turns to come. -/
def turns (ts : List Turn) : State := { State.reset with schedule := ts }

/-- The state after reset with a word on the command port and the foreground's turn. -/
def commanded (w : CmdWord) : State := { turns [.foreground] with port := some w }

/-- The state after reset with the sequencer at a code and the foreground's turn. -/
def atSeq (c : SeqCode) : State := { turns [.foreground] with seq := c }

/-- An armed timer at 16 MHz with `CMP = 3` (V19, P2): counter, flag, and the turns to come. -/
def running (cnt : BitVec 16) (iflg : BitVec 8) (ts : List Turn) : State :=
  { State.reset with
    armed := true, ctrl := 0x09, cnt := cnt, cmp := 3, ien := 0x02, iflg := iflg, gie := 1,
    schedule := ts }

/-- An armed timer without a clock (A3). -/
def stopped (ts : List Turn) : State :=
  { State.reset with armed := true, ctrl := 0x08, cmp := 999, ien := 0x02, gie := 1, schedule := ts }

/-! ### WellFormed: each check refuses an ill-formed term -/

theorem test_wf_refuses_reserved : Instr.wellFormed (.reserved 0x200) = false := by decide
theorem test_wf_refuses_select_zero : Instr.wellFormed (.select 0) = false := by decide
theorem test_wf_refuses_configure_zero : Instr.wellFormed (.configure 0) = false := by decide
theorem test_wf_accepts :
    Instr.wellFormed (.select 1) = true ∧ Instr.wellFormed (.configure 1) = true ∧
    Instr.wellFormed (.arm 0 0) = true ∧ Instr.wellFormed .m7 = true := by decide

/-! ### Decode: a word for every constructor (R60, R61, R65; X1 to X3) -/

theorem test_decode_reserved :
    decode (.command 0x0000000000000200) = .ok (.reserved 0x200) := by decide
theorem test_decode_select :
    decode (.command 0x400000000003E800) = .ok (.select 256000) := by decide
theorem test_decode_arm :
    decode (.command 0x8001000000007A11) = .ok (.arm 256 31249) := by decide
theorem test_decode_arm_negative :
    decode (.command 0x800001FFFFFFFFFF) = .ok (.arm 1 (-1)) := by decide
theorem test_decode_configure :
    decode (.command 0xC000000000000200) = .ok (.configure 0x200) := by decide
theorem test_decode_idle : decode (.sequencer 0b000) = .ok .idle := by decide
theorem test_decode_m1 : decode (.sequencer 0b001) = .ok .m1 := by decide
theorem test_decode_m2 : decode (.sequencer 0b010) = .ok .m2 := by decide
theorem test_decode_m3 : decode (.sequencer 0b011) = .ok .m3 := by decide
theorem test_decode_m4 : decode (.sequencer 0b100) = .ok .m4 := by decide
theorem test_decode_m5 : decode (.sequencer 0b101) = .ok .m5 := by decide
theorem test_decode_m6 : decode (.sequencer 0b110) = .ok .m6 := by decide
theorem test_decode_m7 : decode (.sequencer 0b111) = .ok .m7 := by decide
theorem test_decode_bit_32_is_refused :
    decode (.command 0x4000000100000200) = .error .formatFZeroBits := by decide
theorem test_decode_bit_56_is_refused :
    decode (.command 0x8101000000007A11) = .error .formatAZeroBits := by decide
theorem test_decode_table_words :
    decodeTableWord 64 0x400000000003E800 = some (.select 256000) ∧
    decodeTableWord 8 0 = some .idle ∧ decodeTableWord 8 5 = some .m5 ∧
    decodeTableWord 8 7 = some .m7 := by decide
theorem test_encode_arm : encode (.arm 256 31249) = .command 0x8001000000007A11 := by decide
theorem test_encode_configure : encode (.configure 0x200) = .command 0xC000000000000200 := by decide

/-! ### One step of each instruction -/

/-- X1. -/
theorem test_step_reserved :
    refusedAs (step (State.reset.withFetchWord 64 0x200)) .reservedOpcode = true := by decide
/-- V2. -/
theorem test_step_select :
    nextWith (step (State.reset.withFetchWord 64 0x4000000000000200)) (fun t =>
      t.result == some 0x01000000007A11 && t.idx == 3 && t.seq == 0) = true := by decide
/-- V3: no divisor fits. -/
theorem test_step_select_exhausted :
    nextWith (step (State.reset.withFetchWord 64 0x4000000000000020)) (fun t =>
      t.result == some 0x0400000001E847 && t.idx == 4) = true := by decide
/-- A1, the row "accept" of the trace. -/
theorem test_step_arm :
    nextWith (step (State.reset.withFetchWord 64 0x8001000000007A11)) (fun t =>
      t.divr == 256 && t.thr == 31249 && t.seq == 1 && t.result == none) = true := by decide
/-- X6. -/
theorem test_step_arm_again_is_refused :
    refusedAs (step ((running 0 0 []).withFetchWord 64 0x8001000000007A11)) .alreadyArmed = true := by
  decide
/-- V12: a threshold of 65536 does not fit. -/
theorem test_step_configure :
    nextWith (step (State.reset.withFetchWord 64 0xC00000000000F423)) (fun t =>
      t.divr == 8 && t.thr == 8191 && t.idx == 1 && t.seq == 1) = true := by decide
/-- X4. -/
theorem test_step_configure_zero_is_refused :
    refusedAs (step (State.reset.withFetchWord 64 0xC000000000000000)) .zeroFrequency = true := by
  decide
/-- X5. -/
theorem test_step_select_mid_sequence_is_refused :
    refusedAs (step { atSeq 3 with port := some 0x4000000000000200 }) .sequenceInProgress = true := by
  decide
/-- X7. -/
theorem test_step_configure_in_handler_is_refused :
    refusedAs (step { commanded 0xC00000000003E800 with insvc := true }) .calledFromHandler = true := by
  decide
/-- R65: nothing to do. -/
theorem test_step_idle :
    nextWith (step (turns [.foreground])) (fun t => t == State.reset) = true := by decide
/-- A1's trace. -/
theorem test_step_m1 :
    nextWith (step { atSeq 1 with gie := 1 }) (fun t => t.gie == 0 && t.seq == 2) = true := by decide
/-- The example of R92. -/
theorem test_step_m2 :
    nextWith (step { atSeq 2 with ctrl := 0x0D, cnt := 0x1234, cmp := 0x5678 }) (fun t =>
      t.ctrl == 0 && t.cnt == 0 && t.cmp == 0x5678 && t.seq == 3) = true := by decide
/-- A5: truncation. -/
theorem test_step_m3 :
    nextWith (step { atSeq 3 with thr := 124999 }) (fun t => t.cmp == 0xE847 && t.seq == 4) = true := by
  decide
/-- A8: a negative threshold. -/
theorem test_step_m3_negative :
    nextWith (step { atSeq 3 with thr := -1 }) (fun t => t.cmp == 0xFFFF) = true := by decide
/-- A1's trace. -/
theorem test_step_m4 :
    nextWith (step (atSeq 4)) (fun t => t.ctrl == 0x08 && t.seq == 5) = true := by decide
/-- A1's trace. -/
theorem test_step_m5 :
    nextWith (step { atSeq 5 with ctrl := 0x08, divr := 256 }) (fun t =>
      t.ctrl == 0x0C && t.seq == 6) = true := by decide
/-- A3: an unmapped divisor. -/
theorem test_step_m5_unmapped :
    nextWith (step { atSeq 5 with ctrl := 0x08, divr := 32 }) (fun t => t.ctrl == 0x08) = true := by
  decide
/-- A1's trace. -/
theorem test_step_m6 :
    nextWith (step (atSeq 6)) (fun t => t.ien == 0x02 && t.seq == 7 && t.gie == 0) = true := by decide
/-- A1's trace. -/
theorem test_step_m7 :
    nextWith (step { atSeq 7 with ien := 0x02 }) (fun t =>
      t.gie == 1 && t.armed && t.seq == 0 && t.ien == 0x02) = true := by decide

/-! ### One step of the hardware -/

/-- R46: an agent that got no turn is added, and a reference cycle is the tick agent's. -/
theorem test_fair_round :
    fairRound [.cycle, .deliver] = [.cycle, .deliver, .foreground, .ret] ∧
    fairRound [] = [.foreground, .tick, .deliver, .ret] := by decide

/-- K1, its first tick. -/
theorem test_step_tick_counts :
    nextWith (step (running 0 0 [.tick])) (fun t => t.cnt == 1 && t.iflg == 0) = true := by decide
/-- K1, its fourth tick. -/
theorem test_step_tick_matches :
    nextWith (step (running 3 0 [.tick])) (fun t => t.cnt == 0 && t.iflg == 0x02) = true := by decide
/-- K6. -/
theorem test_step_tick_without_ctc_is_refused :
    refusedAs (step { running 0 0 [.tick] with ctrl := 0x01 }) .tickWithoutClearOnCompare = true := by
  decide
/-- R69: the reserved clock-select codes. -/
theorem test_step_tick_reserved_cs_is_refused :
    refusedAs (step { running 0 0 [.tick] with ctrl := 0x0E }) .reservedClockSelect = true := by decide
/-- R111: the eighth cycle of a divisor 8 is a tick. -/
theorem test_step_cycle_ticks :
    nextWith (step { running 0 0 [.cycle] with ctrl := 0x0A, psc := 7 }) (fun t =>
      t.cnt == 1 && t.psc == 0) = true := by decide
/-- R111: the seventh is not. -/
theorem test_step_cycle_advances :
    nextWith (step { running 0 0 [.cycle] with ctrl := 0x0A, psc := 6 }) (fun t =>
      t.cnt == 0 && t.psc == 7) = true := by decide
/-- I1. -/
theorem test_step_deliver :
    nextWith (step (running 1 0x02 [.deliver])) (fun t =>
      t.iflg == 0 && t.insvc && t.invocations == 1 && t.gie == 1) = true := by decide
/-- I2 and I4. -/
theorem test_step_deliver_masked :
    nextWith (step { running 1 0x02 [.deliver] with gie := 0 }) (fun t =>
      t.iflg == 0x02 && !t.insvc && t.invocations == 0) = true ∧
    nextWith (step { running 1 0x02 [.deliver] with insvc := true }) (fun t =>
      t.iflg == 0x02 && t.insvc && t.invocations == 0) = true := by decide
/-- I6. -/
theorem test_step_return :
    nextWith (step { running 1 0x02 [.ret] with insvc := true }) (fun t =>
      !t.insvc && t.iflg == 0x02 && t.deliverable) = true := by decide
/-- R150. -/
theorem test_step_reset :
    nextWith (step { running 1 0x02 [.reset] with port := some 0 }) (fun t =>
      t.ctrl == 0 && !t.armed && t.port == none && t.cmp == 0) = true := by decide

/-! ### Witnesses: the hypotheses of each statement are met -/

/-- A state of the invariant in the middle of the sequence. -/
theorem witness_consistent_in_sequence : Consistent (atSeq 2) := by
  constructor
  case psc_range =>
    intro d h
    rw [show divOf (atSeq 2).cs = none by decide] at h
    cases h
  all_goals decide

/-- A state of the invariant with an interrupt to take. -/
theorem witness_consistent_armed : Consistent (running 1 0x02 [.deliver]) := by
  constructor
  case psc_range =>
    intro d h
    rw [show divOf (running 1 0x02 [.deliver]).cs = some 1 by decide] at h
    cases h
    decide
  all_goals decide

/-- A state of the invariant at the edges of the window between M2 and M5. -/
theorem witness_consistent_between_m2_and_m5 :
    Consistent (atSeq 3) ∧ Consistent { atSeq 5 with ctrl := 0x08 } := by
  constructor <;> constructor
  case left.psc_range =>
    intro d h
    rw [show divOf (atSeq 3).cs = none by decide] at h
    cases h
  case right.psc_range =>
    intro d h
    have e : divOf { atSeq 5 with ctrl := 0x08 }.cs = none := by decide
    exact absurd (e.symm.trans h) (by simp)
  all_goals decide

theorem witness_EncodeOfDecodeIsTheWord :
    decode (.command 0x800001FFFFFFFFFF) = .ok (.arm 1 (-1)) := by decide

theorem witness_TurnsComeFromTheSchedule :
    (turns [.cycle, .ret]).schedule = [Turn.cycle, Turn.ret] ∧ State.reset.schedule = [] := by decide

/-- A tick and a command, then the foreground's turn. -/
theorem witness_EveryInterleavingIsARun :
    ∃ t u, Host.Core.run Sys2Proof.core 2
        (turns ([.tick, .present 0x4000000000000200] ++ ([.foreground] ++ [.ret]))) = .next t ∧
      Host.Core.run Sys2Proof.core 1 t = .next u ∧ u.divr = 256 := ⟨_, _, rfl, rfl, by decide⟩

theorem witness_EveryAgentMovesAgain :
    Turn.foreground ∈ [Turn.foreground, Turn.tick, Turn.deliver, Turn.ret] ∧
    Turn.ret ∈ [Turn.foreground, Turn.tick, Turn.deliver, Turn.ret] := by decide

/-- A delivery that is enabled and not next. -/
theorem witness_EnabledDeliveryIsEventuallyTaken :
    Consistent (running 1 0x02 [.tick, .deliver]) ∧
    (running 1 0x02 [.tick, .deliver]).deliverable = true ∧
    ∃ t, step (running 1 0x02 [.tick, .deliver]) = .next t := by
  refine ⟨?_, by decide, _, rfl⟩
  obtain ⟨h1, h2, h3, h4, h5, h6, h7, h8, h9, h10, h11, h12, h13, h14, h15⟩ :=
    witness_consistent_armed
  exact ⟨h1, h2, h3, h4, h5, h6, h7, h8, h9, h10, h11, h12, h13, h14, h15⟩

/-- A word for each clause. -/
theorem witness_CommandWordSelectsItsRow :
    (0x400000000003E800#64 &&& 0xFFFFFFFF00000000#64 = 0x4000000000000000#64) ∧
    (0x8001000000007A11#64 &&& 0xFF00000000000000#64 = 0x8000000000000000#64) ∧
    (0xC000000000000200#64 &&& 0xFFFFFFFF00000000#64 = 0xC000000000000000#64) ∧
    (0x3FFFFFFFFFFFFFFF#64 &&& 0xC000000000000000#64 = 0) ∧
    (0x4000000100000200#64 &&& 0xFFFFFFFF00000000#64 ≠ 0x4000000000000000#64 ∧
      0x4000000100000200#64 &&& 0xFF00000000000000#64 ≠ 0x8000000000000000#64 ∧
      0x4000000100000200#64 &&& 0xFFFFFFFF00000000#64 ≠ 0xC000000000000000#64 ∧
      0x4000000100000200#64 &&& 0xC000000000000000#64 ≠ 0) := by decide

theorem witness_StepRunsTheDecodedInstruction :
    nextTurn (commanded 0x400000000003E800) = .foreground ∧
    decode (fetch (commanded 0x400000000003E800)) = .ok (.select 256000) ∧
    nextTurn (atSeq 3) = .foreground ∧ decode (fetch (atSeq 3)) = .ok .m3 := by decide

theorem witness_StepRunsThePlacedWord :
    decodeTableWord 64 0x8001000000007A11 = some (.arm 256 31249) ∧
    decodeTableWord 8 7 = some .m7 := by decide

theorem witness_CommandAcceptedExactlyWhenReady :
    nextTurn (commanded 0xC000000000000001) = .foreground ∧
    (commanded 0xC000000000000001).port = some 0xC000000000000001 ∧
    (commanded 0xC000000000000001).seq = 0 ∧ (commanded 0xC000000000000001).armed = false ∧
    (commanded 0xC000000000000001).insvc = false ∧
    0xC000000000000001#64 &&& 0xFFFFFFFF00000000#64 = 0xC000000000000000#64 ∧
    (0xC000000000000001#64).setWidth 32 ≠ (0 : BitVec 32) := by decide

/-- A case of every clause, at the edges of the ranges. -/
theorem witness_ReservedEncodingsBehave :
    (nextTurn (commanded 0x3FFFFFFFFFFFFFFF) = .foreground ∧
      0x3FFFFFFFFFFFFFFF#64 &&& 0xC000000000000000#64 = 0) ∧
    (0x4000000100000200#64 &&& 0x4000000000000000#64 ≠ 0 ∧
      0x4000000100000200#64 &&& 0x3FFFFFFF00000000#64 ≠ 0) ∧
    (0x8101000000007A11#64 &&& 0xC000000000000000#64 = 0x8000000000000000#64 ∧
      0x8101000000007A11#64 &&& 0x3F00000000000000#64 ≠ 0) ∧
    (State.reset.seq = 0 ∧ State.reset.armed = false ∧ State.reset.insvc = false ∧
      (0#16).toNat ∉ divisors ∧ (1025#16).toNat ∉ divisors) ∧
    ((atSeq 5).seq = 5 ∧ (atSeq 5).divr = 0) ∧
    ((-1 : BitVec 40).toInt < 0 ∧ (65535 : Int) < (65536#40).toInt) ∧
    ((atSeq 3).seq = 3 ∧ { atSeq 3 with thr := 65536 }.thr = 65536) ∧
    (nextTurn (turns [.tick]) = .tick ∧ { turns [.tick] with ctrl := 0x0E }.cs = 6 ∧
      { turns [.tick] with ctrl := 0x0F }.cs = 7 ∧ { turns [.tick] with ctrl := 0x01 }.cs ≠ 0 ∧
      { turns [.tick] with ctrl := 0x01 }.ctc = false) ∧
    Consistent (running 1 0x02 [.deliver]) ∧ (running 1 0x02 [.deliver]).cs ≠ 0 :=
  ⟨by decide, by decide, by decide, by decide, by decide, by decide, by decide, by decide,
    witness_consistent_armed, by decide⟩

theorem witness_CandidateThresholdIsExact :
    (1 : BitVec 32) ≠ 0 ∧ (0xFFFFFFFF : BitVec 32) ≠ 0 ∧ (1#16).toNat ∈ divisors ∧
    (1024#16).toNat ∈ divisors := by decide

/-- A state that accepts and one for each bar. -/
theorem witness_SelectStoresWhereTheSearchStops :
    (1 : BitVec 32) ≠ 0 ∧ Ready State.reset ∧ ¬ Ready (atSeq 1) ∧ ¬ Ready (running 0 0 []) ∧
    ¬ Ready { State.reset with insvc := true } := by
  unfold Ready; decide

theorem witness_SelectExhaustionReturnsTheLast :
    (61 : BitVec 32) ≠ 0 ∧ (62 : BitVec 32) ≠ 0 ∧ (∀ d ∈ divisors, 65536 ≤ threshold 61 d) ∧
    ¬ (∀ d ∈ divisors, 65536 ≤ threshold 62 d) ∧ Ready State.reset := by
  unfold Ready; decide

theorem witness_SelectReturnsSmallestFittingDivisor :
    (62 : BitVec 32) ≠ 0 ∧ (∃ d ∈ divisors, threshold 62 d < 65536) ∧
    ∃ t, exec (.select 62) State.reset = .next t := ⟨by decide, by decide, _, rfl⟩

theorem witness_SelectIsMonotone :
    (61 : BitVec 32) ≠ 0 ∧ (61 : BitVec 32).toNat ≤ (62 : BitVec 32).toNat ∧
    (1#16).toNat ∈ divisors ∧ (1024#16).toNat ∈ divisors ∧ (1#16).toNat ≤ (1024#16).toNat ∧
    Ready State.reset := by
  unfold Ready; decide

theorem witness_SelectIsPure :
    (∃ t, exec (.select 512) State.reset = .next t) ∧
    ∃ v, exec (.select 512) { State.reset with cmp := 7, divr := 9 } = .next v :=
  ⟨⟨_, rfl⟩, _, rfl⟩

theorem witness_ResultPortShowsTheSelection :
    (∃ t, exec (.select 512) State.reset = .next t) ∧
    ((turns [.tick]).port = none ∧ nextTurn (turns [.tick]) ≠ .reset ∧ (turns [.tick]).seq = 0 ∧
      ∃ t, step (turns [.tick]) = .next t) ∧
    (∃ t, exec (.configure 512) State.reset = .next t) ∧
    ∃ t, exec (.arm 256 31249) State.reset = .next t :=
  ⟨⟨_, rfl⟩, ⟨by decide, by decide, by decide, _, rfl⟩, ⟨_, rfl⟩, _, rfl⟩

/-- Threshold 65535 (V12b) and threshold 0 (V20). -/
theorem witness_SelectedPeriodIsWithinOneClock :
    (∃ t, exec (.select 0xF424) State.reset = .next t ∧ 0 ≤ t.thr.toInt ∧ t.thr.toInt ≤ 65535) ∧
    ∃ t, exec (.select 0xF4240000) State.reset = .next t ∧ 0 ≤ t.thr.toInt ∧ t.thr.toInt ≤ 65535 :=
  ⟨⟨_, rfl, by decide, by decide⟩, _, rfl, by decide, by decide⟩

theorem witness_ArmStartsTheSequence :
    Ready State.reset ∧ ¬ Ready (atSeq 1) ∧ ¬ Ready (running 0 0 []) ∧
    ¬ Ready { State.reset with insvc := true } := witness_SelectStoresWhereTheSearchStops.2

theorem witness_ConfigureSelectsThenStarts :
    (0xFFFFFFFF : BitVec 32) ≠ 0 ∧ Ready State.reset ∧ ¬ Ready (atSeq 1) ∧ ¬ Ready (running 0 0 []) :=
  ⟨by decide, witness_ArmStartsTheSequence.1, witness_ArmStartsTheSequence.2.1,
    witness_ArmStartsTheSequence.2.2.1⟩

theorem witness_IdleChangesNothing : State.reset.seq = 0 := by decide

theorem witness_M4SetsClearOnCompare : (atSeq 4).seq = 4 ∧ (atSeq 3).seq ≠ 4 := by decide

theorem witness_micro_steps_are_enabled :
    (atSeq 0).seq = 0 ∧ (atSeq 1).seq = 1 ∧ (atSeq 2).seq = 2 ∧ (atSeq 3).seq = 3 ∧
    (atSeq 4).seq = 4 ∧ (atSeq 5).seq = 5 ∧ (atSeq 6).seq = 6 ∧ (atSeq 7).seq = 7 := by decide

theorem witness_M1SuppressesDelivery : Consistent (atSeq 2) ∧ 2 ≤ (atSeq 2).seq.toNat :=
  ⟨witness_consistent_in_sequence, by decide⟩

theorem witness_M2ZeroesControlAndCounter :
    Consistent (atSeq 3) ∧ 3 ≤ (atSeq 3).seq.toNat ∧ Consistent { atSeq 5 with ctrl := 0x08 } ∧
    { atSeq 5 with ctrl := 0x08 }.seq.toNat ≤ 5 :=
  ⟨witness_consistent_between_m2_and_m5.1, by decide, witness_consistent_between_m2_and_m5.2,
    by decide⟩

/-- M3 at both edges of the exact range. -/
theorem witness_M3WritesTruncatedThreshold :
    (0 : Int) ≤ { atSeq 3 with thr := 65535 }.thr.toInt ∧
    { atSeq 3 with thr := 65535 }.thr.toInt ≤ 65535 ∧
    (0 : Int) ≤ { atSeq 3 with thr := 0 }.thr.toInt := by decide

theorem witness_M5SelectsTheClock :
    clockCode { atSeq 5 with ctrl := 0x08, divr := 1024 }.divr ≠ 0 ∧
    { atSeq 5 with ctrl := 0x08, divr := 1024 }.cs = 0 ∧
    { atSeq 5 with ctrl := 0x08, divr := 1024 }.ctc = true ∧ clockCode (atSeq 5).divr = 0 := by decide

theorem witness_M6EnablesTheInterrupt : (atSeq 6).seq = 6 ∧ (atSeq 6).gie = 0 := by decide

theorem witness_M7ResumesDelivery :
    { atSeq 7 with iflg := 0x02, ien := 0x02 }.seq = 7 ∧
    { atSeq 7 with iflg := 0x02, ien := 0x02 }.cmf = true ∧
    { atSeq 7 with iflg := 0x02, ien := 0x02 }.cmie = true ∧
    { atSeq 7 with iflg := 0x02, ien := 0x02 }.insvc = false := by decide

theorem witness_SequenceAdvancesInOrder :
    (nextTurn (atSeq 7) = .foreground ∧ (atSeq 7).port = none ∧ (atSeq 7).seq ≠ 0) ∧
    (nextTurn (turns [.tick]) ≠ .foreground ∧ nextTurn (turns [.tick]) ≠ .reset ∧
      ∃ t, step (turns [.tick]) = .next t) ∧
    (Consistent (atSeq 2) ∧ 2 ≤ (atSeq 2).seq.toNat ∧ ∃ t, step (atSeq 2) = .next t) :=
  ⟨by decide, ⟨by decide, by decide, _, rfl⟩, witness_consistent_in_sequence, by decide, _, rfl⟩

theorem witness_ArmReachesItsEndState :
    Ready { commanded 0x8001000000007A11 with schedule := List.replicate 8 .foreground } ∧
    (commanded 0x8001000000007A11).port =
      some ((2 : BitVec 2) ++ (0 : BitVec 6) ++ (256 : BitVec 16) ++ (31249 : BitVec 40)) ∧
    (turns (List.replicate 8 .foreground)).schedule = List.replicate 8 Turn.foreground ++ [] := by
  unfold Ready; decide

theorem witness_ThresholdsEqualMod65536ArmAlike :
    Ready (turns (List.replicate 8 .foreground)) ∧
    (turns (List.replicate 8 .foreground)).schedule = List.replicate 8 Turn.foreground ++ [] ∧
    (65536 : Int) ∣ (65536#40).toInt - (0#40).toInt := by
  unfold Ready; decide

theorem witness_UnmappedDivisorNeverInterrupts :
    (stopped [.tick, .deliver]).phase = .armed ∧ (stopped [.tick, .deliver]).cs = 0 ∧
    (stopped [.tick, .deliver]).cmf = false ∧
    (∀ k < 2, ∀ u, Host.Core.run Sys2Proof.core k (stopped [.tick, .deliver]) = .next u →
      nextTurn u ≠ .reset) ∧
    ∃ t, Host.Core.run Sys2Proof.core 2 (stopped [.tick, .deliver]) = .next t := by
  refine ⟨by decide, by decide, by decide, ?_, _, rfl⟩
  intro k hk u hu
  obtain rfl | rfl : k = 0 ∨ k = 1 := by omega
  · cases hu; decide
  · cases hu; decide

theorem witness_SecondCallIsRefused :
    { running 0 0 [.foreground] with port := some 0x8001000000007A11 }.armed = true ∧
    nextTurn { running 0 0 [.foreground] with port := some 0x8001000000007A11 } = .foreground ∧
    { running 0 0 [.foreground] with port := some 0x8001000000007A11 }.port = some 0x8001000000007A11 ∧
    ((running 0 0 [.reset]).phase = .armed ∧
      nextWith (step (running 0 0 [.reset])) (fun t => t.phase != .armed) = true) ∧
    ∃ t, exec (.select 512) State.reset = .next t :=
  ⟨by decide, by decide, by decide, by decide, _, rfl⟩

/-- Counting, matching, and no tick. -/
theorem witness_TickCountsOrMatches :
    nextTurn (running 0 0 [.tick]) = .tick ∧ RunsAt (running 0 0 [.tick]) 1 ∧
    (running 0 0 [.tick]).cnt ≠ (running 0 0 [.tick]).cmp ∧ RunsAt (running 3 0 [.tick]) 1 ∧
    (running 3 0 [.tick]).cnt = (running 3 0 [.tick]).cmp ∧
    nextTurn (stopped [.tick]) = .tick ∧ (∀ d, ¬ RunsAt (stopped [.tick]) d) ∧
    ∃ t, step (stopped [.tick]) = .next t := by
  refine ⟨by decide, ⟨by decide, by decide⟩, by decide, ⟨by decide, by decide⟩, by decide, by decide,
    ?_, _, rfl⟩
  rintro d ⟨h, _⟩
  rw [show divOf (stopped [.tick]).cs = none by decide] at h
  cases h

theorem witness_StoppedCounterKeepsItsValue :
    (stopped [.tick]).cs = 0 ∧ nextTurn (stopped [.tick]) = .tick ∧
    nextTurn (stopped [.cycle]) = .cycle := by decide

theorem witness_ReservedClockSelectIsRefused :
    nextTurn { turns [.tick] with ctrl := 0x0E } = .tick ∧ { turns [.tick] with ctrl := 0x0E }.cs = 6 ∧
    nextTurn { turns [.cycle] with ctrl := 0x0F } = .cycle ∧
    { turns [.cycle] with ctrl := 0x0F }.cs = 7 := by decide

theorem witness_TickWithoutClearOnCompareIsRefused :
    nextTurn { running 0 0 [.tick] with ctrl := 0x01 } = .tick ∧
    { running 0 0 [.tick] with ctrl := 0x01 }.cs ≠ 0 ∧
    { running 0 0 [.tick] with ctrl := 0x01 }.ctc = false ∧
    Consistent (running 1 0x02 [.deliver]) ∧ (running 1 0x02 [.deliver]).cs ≠ 0 :=
  ⟨by decide, by decide, by decide, witness_consistent_armed, by decide⟩

/-- One cycle short of the tick, and the cycle that makes it. -/
theorem witness_TickComesEveryDivisorCycles :
    RunsAt { running 0 0 [.cycle] with ctrl := 0x0A, psc := 6 } 8 ∧
    (running 0 0 [.cycle]).schedule = List.replicate 1 Turn.cycle ++ [] ∧
    { running 0 0 [.cycle] with ctrl := 0x0A, psc := 6 }.psc.toNat + 1 < 8 ∧
    { running 0 0 [.cycle] with ctrl := 0x0A, psc := 7 }.psc.toNat < 8 ∧
    { running 0 0 [.cycle] with ctrl := 0x0A, psc := 7 }.psc.toNat + 1 = 8 := by
  unfold RunsAt; decide

/-- Up to the match, and the match. -/
theorem witness_MatchComesEveryPeriod :
    RunsAt (running 0 0 (List.replicate 4 .tick)) 1 ∧
    (running 0 0 (List.replicate 4 .tick)).cnt.toNat ≤ (running 0 0 []).cmp.toNat ∧
    (running 0 0 (List.replicate 4 .tick)).schedule = List.replicate 4 Turn.tick ++ [] ∧
    (running 0 0 (List.replicate 4 .tick)).schedule = List.replicate 3 Turn.tick ++ [.tick] ∧
    (running 0 0 []).cnt.toNat + 3 ≤ (running 0 0 []).cmp.toNat ∧
    (running 0 0 []).cnt.toNat + 4 = (running 0 0 []).cmp.toNat + 1 := by
  unfold RunsAt; decide

theorem witness_ArmedTimerNeverStops :
    (running 3 0 [.tick]).phase = .armed ∧ nextTurn (running 3 0 [.tick]) ≠ .reset ∧
    ∃ t, step (running 3 0 [.tick]) = .next t := ⟨by decide, by decide, _, rfl⟩

/-- I1, and each way delivery is not enabled (I2 to I5). -/
theorem witness_DeliverTakesTheInterrupt :
    nextTurn (running 1 0x02 [.deliver]) = .deliver ∧ (running 1 0x02 [.deliver]).cmf = true ∧
    (running 1 0x02 [.deliver]).cmie = true ∧ (running 1 0x02 [.deliver]).gie = 1 ∧
    (running 1 0x02 [.deliver]).insvc = false ∧
    { running 1 0x02 [.deliver] with gie := 0 }.gie = 0 ∧
    { running 1 0x02 [.deliver] with ien := 0 }.cmie = false ∧
    { running 1 0x02 [.deliver] with insvc := true }.insvc = true ∧
    (running 1 0 [.deliver]).cmf = false ∧
    Consistent (atSeq 2) ∧ 2 ≤ (atSeq 2).seq.toNat :=
  ⟨by decide, by decide, by decide, by decide, by decide, by decide, by decide, by decide, by decide,
    witness_consistent_in_sequence, by decide⟩

theorem witness_ReturnEndsTheCallback :
    nextTurn { running 1 0x02 [.ret] with insvc := true } = .ret ∧
    { running 1 0x02 [.ret] with insvc := true }.insvc = true ∧
    { running 1 0x02 [.ret] with insvc := true }.cmf = true ∧
    { running 1 0x02 [.ret] with insvc := true }.cmie = true ∧
    { running 1 0x02 [.ret] with insvc := true }.gie = 1 := by decide

theorem witness_TurnsNotEnabledPass :
    nextTurn (running 1 0 [.deliver]) = .deliver ∧ (running 1 0 [.deliver]).deliverable = false ∧
    nextTurn (running 1 0 [.ret]) = .ret ∧ (running 1 0 [.ret]).insvc = false := by decide

/-- A delivery, and a match during the callback by a tick and by a reference cycle. -/
theorem witness_CallbackIsNotReentered :
    (∃ t, step (running 1 0x02 [.deliver]) = .next t ∧
      t.invocations ≠ (running 1 0x02 [.deliver]).invocations) ∧
    (nextTurn { running 3 0 [.tick] with insvc := true } = .tick ∧
      { running 3 0 [.tick] with insvc := true }.insvc = true ∧
      { running 3 0 [.tick] with insvc := true }.cnt = { running 3 0 [.tick] with insvc := true }.cmp ∧
      RunsAt { running 3 0 [.tick] with insvc := true } 1 ∧
      nextTurn { running 3 0 [.cycle] with insvc := true } = .cycle ∧
      { running 3 0 [.cycle] with insvc := true }.psc.toNat + 1 = 1) ∧
    { running 3 0x02 [.tick] with insvc := true }.cmf = true ∧
    ∃ t, step { running 3 0x02 [.tick] with insvc := true } = .next t := by
  refine ⟨⟨_, rfl, by decide⟩, ⟨by decide, by decide, by decide, ⟨by decide, by decide⟩, by decide,
    by decide⟩, by decide, _, rfl⟩

theorem witness_MatchWhilePendingIsAbsorbed :
    RunsAt (running 3 0x02 [.tick, .deliver, .ret, .deliver]) 1 ∧
    (running 3 0x02 [.tick, .deliver, .ret, .deliver]).cnt = 3 ∧
    (running 3 0x02 [.tick, .deliver, .ret, .deliver]).cmp = 3 ∧
    (running 3 0x02 [.tick, .deliver, .ret, .deliver]).cmf = true ∧
    (running 3 0x02 [.tick, .deliver, .ret, .deliver]).cmie = true ∧
    (running 3 0x02 [.tick, .deliver, .ret, .deliver]).gie = 1 ∧
    (running 3 0x02 [.tick, .deliver, .ret, .deliver]).insvc = false ∧
    (running 3 0x02 [.tick, .deliver, .ret, .deliver]).schedule =
      [Turn.tick, Turn.deliver, Turn.ret, Turn.deliver] ++ [] := by
  unfold RunsAt; decide

theorem witness_HandlerSeesOnlyArmedRegisters :
    Consistent (running 1 0x02 [.deliver]) ∧
    ∃ t, step (running 1 0x02 [.deliver]) = .next t ∧
      t.invocations ≠ (running 1 0x02 [.deliver]).invocations :=
  ⟨witness_consistent_armed, _, rfl, by decide⟩

theorem witness_TickAndM7Commute :
    { atSeq 7 with ctrl := 0x09, cmp := 3, ien := 0x02 }.seq = 7 ∧
    { atSeq 7 with ctrl := 0x09, cmp := 3, ien := 0x02 }.port = none ∧
    RunsAt { atSeq 7 with ctrl := 0x09, cmp := 3, ien := 0x02 } 1 := by
  unfold RunsAt; decide

theorem witness_RegisterReadAfterWrite : Reg.cnt ≠ Reg.cmp := by decide

/-- A step of each writer that changes its register. -/
theorem witness_RegistersHaveOnlyTheirWriters :
    nextWith (step (atSeq 4)) (fun t => memRead t .ctrl != memRead (atSeq 4) .ctrl) = true ∧
    nextWith (step { atSeq 3 with thr := 5 }) (fun t => memRead t .cmp != 0) = true ∧
    nextWith (step (atSeq 6)) (fun t => memRead t .ien != 0) = true ∧
    nextWith (step (atSeq 7)) (fun t => memRead t .gie != 0) = true ∧
    nextWith (step (running 0 0 [.tick])) (fun t => memRead t .cnt != 0) = true ∧
    nextWith (step (running 3 0 [.cycle])) (fun t => memRead t .iflg != 0) = true := by decide

theorem witness_LifeCycleLeavesArmedOnlyByReset :
    (nextWith (step (atSeq 7)) (fun t => t.armed != (atSeq 7).armed) = true) ∧
    (∃ t, step (running 0 0 [.tick]) = .next t) ∧ (running 0 0 [.tick]).phase = .armed ∧
    nextTurn (running 0 0 [.tick]) ≠ .reset ∧ Consistent (running 1 0x02 [.deliver]) :=
  ⟨by decide, ⟨_, rfl⟩, by decide, by decide, witness_consistent_armed⟩

theorem witness_ResetEventReturnsToDisarmed :
    nextTurn (running 1 0x02 [.reset]) = .reset ∧ (running 1 0x02 [.reset]).phase ≠ .disarmed ∧
    nextWith (step (running 1 0x02 [.reset])) (fun t => t.phase == .disarmed) = true ∧
    Turn.tick ≠ .reset := by decide

theorem witness_ClockTableIsInjective : csmap 1 ≠ 0 ∧ csmap 1024 ≠ 0 ∧ csmap 32 = 0 := by decide

theorem witness_EveryStepKeepsConsistent :
    Consistent (running 1 0x02 [.deliver]) ∧ (∃ t, step (running 1 0x02 [.deliver]) = .next t) ∧
    Consistent (atSeq 2) ∧ ∃ t, step (atSeq 2) = .next t :=
  ⟨witness_consistent_armed, ⟨_, rfl⟩, witness_consistent_in_sequence, _, rfl⟩

end Sys2Proof.Tests
end

section
/-! The clock table: `CSMAP` by cases and its inverse `DIVOF` (spec 10_state.md R23, 30_encoding.md
R67), and the statement about it. -/

open Sys2Proof.Claims

namespace Sys2Proof.Machine

/-- The divisor of a clock-select code read back from its divisor. -/
theorem divOf_csmap (d : BitVec 16) (h : csmap d ≠ 0) : divOf (csmap d) = some d.toNat := by
  rw [csmap_eq_ite] at h ⊢
  split_ifs at h ⊢
  case neg => exact absurd rfl h
  all_goals subst d; rfl

theorem mem_divisors_of_csmap_ne_zero (d : BitVec 16) (h : csmap d ≠ 0) :
    d.toNat ∈ divisors := by
  have hd := (divOf_eq_some (csmap d) d.toNat).1 (divOf_csmap d h)
  simp only [divisors, List.mem_cons, List.not_mem_nil, or_false]
  omega

theorem csmap_ne_zero_of_mem_divisors (d : BitVec 16) (h : d.toNat ∈ divisors) :
    csmap d ≠ 0 := by
  have hall : ∀ n ∈ divisors, csmap (BitVec.ofNat 16 n) ≠ 0 := by decide
  simpa using hall d.toNat h

/-- No two divisors have one code, since the code gives the divisor back. -/
theorem csmap_injective_of_ne_zero (d e : BitVec 16) (hd : csmap d ≠ 0) (h : csmap d = csmap e) :
    d = e := by
  have hde : some d.toNat = some e.toNat := by
    rw [← divOf_csmap d hd, h, divOf_csmap e (h ▸ hd)]
  exact BitVec.eq_of_toNat_eq (Option.some.inj hde)

/-- The reserved codes 6 and 7 are the code of no divisor. -/
theorem csmap_toNat_le (d : BitVec 16) : (csmap d).toNat ≤ 5 := by
  rw [csmap_eq_ite]
  split_ifs <;> decide

/-- Settles O58: `CSMAP` is the table of R67, and `DIVOF` undoes it. -/
theorem clockTableIsInjective : Obligations.ClockTableIsInjective :=
  ⟨csmap_eq_ite,
    fun d => ⟨mem_divisors_of_csmap_ne_zero d, csmap_ne_zero_of_mem_divisors d⟩,
    csmap_injective_of_ne_zero, divOf_csmap, by decide, by decide, by decide, by decide, by decide⟩

end Sys2Proof.Machine
end

section
/-! The life cycle (spec 10_state.md R14): `PHASE` as it is derived, and which step writes `ARMED`. -/

namespace Sys2Proof.Machine

@[simp] theorem startClock_armed (c : BitVec 3) (s : State) :
    (startClock c s).armed = s.armed := by
  obtain ⟨p, n, h⟩ := startClock_frame c s
  rw [h]

theorem phase_eq_configuring (s : State) : s.phase = .configuring ↔ 2 ≤ s.seq.toNat := by
  unfold State.phase
  split_ifs with hq ha <;> simp [hq]

/-- Disarmed is neither of the other two. -/
theorem phase_eq_disarmed (s : State) :
    s.phase = .disarmed ↔ ¬ 2 ≤ s.seq.toNat ∧ ¬ (s.seq = 0 ∧ s.armed = true) := by
  rw [← phase_eq_configuring, ← phase_eq_armed]
  cases s.phase <;> simp

/-- Only reset and M7 write `ARMED`; in the Armed state no other step moves `SEQ` either. -/
theorem step_armed (s t : State) (h : step s = .next t) :
    (nextTurn s = .reset ∧ t.armed = false) ∨
    (nextTurn s = .foreground ∧ s.port = none ∧ s.seq = 7 ∧ t.armed = true) ∨
    (t.armed = s.armed ∧ (s.phase = .armed → t.seq = s.seq)) := by
  by_cases hr : nextTurn s = .reset
  · have ht : t = resetEvent (dropTurn s) := by
      simpa [step, hr, runTurn, eq_comm] using h
    exact .inl ⟨hr, by rw [ht]; rfl⟩
  right
  by_cases hf : nextTurn s = .foreground
  · rw [phase_eq_armed]
    rcases foreground_step_cases s t hf h with ⟨_, ⟨_, ha, _⟩, hc⟩ | ⟨hp, hm⟩
    · right
      rcases hc with ⟨f, _, rfl⟩ | ⟨d, th, rfl⟩ | ⟨f, _, rfl⟩ <;> simp [ha]
    · rcases hm with ⟨hq, rfl⟩ | ⟨hq, rfl⟩ | ⟨hq, rfl⟩ | ⟨hq, rfl⟩ | ⟨hq, rfl⟩ | ⟨hq, rfl⟩ |
        ⟨hq, rfl⟩ | ⟨hq, rfl⟩
      case inr.inr.inr.inr.inr.inr.inr => exact .inl ⟨hf, hp, hq, rfl⟩
      all_goals right; simp [hq]
  · obtain ⟨hseq, -, -, -, -, harmed, -, -⟩ := hardware_step_frame s t hf hr h
    exact .inr ⟨harmed, fun _ => hseq⟩

/-- Settles O55, by what a step can do to `ARMED`. -/
theorem lifeCycleLeavesArmedOnlyByReset : Obligations.LifeCycleLeavesArmedOnlyByReset := by
  refine ⟨fun s => ⟨phase_eq_configuring s, phase_eq_armed s, phase_eq_disarmed s⟩,
    fun s t h hne => ?_, fun s t h hp hr => ?_, fun s hs ⟨ha, hq⟩ => hq (hs.armed_idle ha)⟩
  · rcases step_armed s t h with hreset | hm7 | ⟨hsame, _⟩
    · exact .inl hreset
    · exact .inr hm7
    · exact absurd hsame hne
  · obtain ⟨hq, ha⟩ := (phase_eq_armed s).1 hp
    rcases step_armed s t h with ⟨hreset, _⟩ | ⟨_, _, h7, _⟩ | ⟨hsame, hseq⟩
    · exact absurd hreset hr
    · exact absurd (hq.symm.trans h7) (by decide)
    · exact (phase_eq_armed t).2 ⟨(hseq hp).trans hq, hsame.trans ha⟩

end Sys2Proof.Machine
end

section
/-! The invariant in its two stages. Until M5 nothing counts and every register but `CMP` and `CTRL`
is zero; from M5 on `CTRL` is final and `CNT <= CMP` (R28). Each turn keeps its stage, M5 leads from
the first to the second and reset leads back. -/

namespace Sys2Proof.Machine

/-- A state of the invariant before M5: `SEQ` is at most 5 and the machine is not armed. -/
structure BeforeM5 (s : State) : Prop where
  seq_le : s.seq.toNat ≤ 5
  armed : s.armed = false
  ctrl : s.ctrl = if s.seq = 5 then 0x08 else 0
  cnt : s.cnt = 0
  ien : s.ien = 0
  iflg : s.iflg = 0
  gie : s.gie = 0
  insvc : s.insvc = false
  result : s.resValid = true →
    s.seq = 0 ∧ s.freq ≠ 0 ∧ s.divr = (selection s.freq).divisor ∧
      s.thr = BitVec.ofInt 40 (selection s.freq).threshold

/-- Where the machine is from M5 on: before M6, before M7, or armed, where alone the callback may
run. -/
def StageSinceM5 (s : State) : Prop :=
  (s.seq = 6 ∧ s.armed = false ∧ s.ien = 0 ∧ s.gie = 0 ∧ s.insvc = false) ∨
  (s.seq = 7 ∧ s.armed = false ∧ s.ien = 0x02 ∧ s.gie = 0 ∧ s.insvc = false) ∨
  (s.seq = 0 ∧ s.armed = true ∧ s.ien = 0x02 ∧ s.gie = 1)

/-- A state of the invariant from M5 on. -/
structure SinceM5 (s : State) : Prop where
  stage : StageSinceM5 s
  ctrl : s.ctrl ∈ [0x08#8, 0x09, 0x0A, 0x0B, 0x0C, 0x0D]
  cnt_le_cmp : s.cnt.toNat ≤ s.cmp.toNat
  iflg : s.iflg = 0 ∨ s.iflg = 0x02
  psc : ∀ d, divOf s.cs = some d → s.psc.toNat < d
  resValid : s.resValid = false

/-! ### The two stages make up the invariant -/

/-- The clock is stopped before M5. -/
theorem BeforeM5.cs_eq_zero {s : State} (h : BeforeM5 s) : s.cs = 0 := by
  rw [State.cs, h.ctrl]
  split_ifs <;> decide

theorem BeforeM5.divOf_cs {s : State} (h : BeforeM5 s) : divOf s.cs = none := by
  rw [h.cs_eq_zero]; exact divOf_zero

theorem BeforeM5.consistent {s : State} (h : BeforeM5 s) : Consistent s where
  armed_idle := by simp [h.armed]
  ctrl_zero := fun _ hq => h.ctrl.trans (if_neg (by intro h5; simp [h5] at hq))
  ctrl_mode := fun hq => h.ctrl.trans (if_pos hq)
  ctrl_final := by
    rintro (ha | h6)
    · simp [h.armed] at ha
    · exact absurd h.seq_le (by omega)
  cnt_zero := fun _ _ => h.cnt
  cnt_le_cmp := by simp [h.cnt]
  ien_before := fun _ _ => h.ien
  ien_after := by
    rintro (ha | h7)
    · simp [h.armed] at ha
    · simpa [h7] using h.seq_le
  iflg_bits := .inl h.iflg
  iflg_zero := fun _ _ => h.iflg
  gie_before := fun _ => h.gie
  gie_after := by simp [h.armed]
  insvc_armed := by simp [h.insvc]
  psc_range := by simp [h.divOf_cs]
  result_fresh := fun hv =>
    let ⟨hseq, hfreq, hdivr, hthr⟩ := h.result hv
    ⟨hseq, h.armed, hfreq, hdivr, hthr⟩

theorem SinceM5.consistent {s : State} (h : SinceM5 s) : Consistent s := by
  obtain ⟨hstage, hctrl, hcnt, hiflg, hpsc, hres⟩ := h
  rcases hstage with ⟨hseq, harmed, hien, hgie, hinsvc⟩ | ⟨hseq, harmed, hien, hgie, hinsvc⟩ |
    ⟨hseq, harmed, hien, hgie⟩
  all_goals
    constructor
    case ctrl_final => exact fun _ => hctrl
    case cnt_le_cmp => exact fun _ => hcnt
    case iflg_bits => exact hiflg
    case psc_range => exact hpsc
    all_goals simp [*]

theorem Consistent.beforeM5 {s : State} (h : Consistent s) (ha : s.armed = false)
    (hq : s.seq.toNat ≤ 5) : BeforeM5 s where
  seq_le := hq
  armed := ha
  ctrl := by
    split_ifs with h5
    · exact h.ctrl_mode h5
    · have h5' : s.seq.toNat ≠ 5 := fun e => h5 (BitVec.eq_of_toNat_eq e)
      exact h.ctrl_zero ha (by omega)
  cnt := h.cnt_zero ha hq
  ien := h.ien_before ha (by intro h7; simp [h7] at hq)
  iflg := h.iflg_zero ha hq
  gie := h.gie_before ha
  insvc := h.insvc_of_armed ha
  result := fun hv =>
    let ⟨hseq, _, hfreq, hdivr, hthr⟩ := h.result_fresh hv
    ⟨hseq, hfreq, hdivr, hthr⟩

theorem Consistent.stageSinceM5 {s : State} (h : Consistent s)
    (hq : s.armed = true ∨ 6 ≤ s.seq.toNat) : StageSinceM5 s := by
  cases ha : s.armed with
  | true => exact .inr (.inr ⟨h.armed_idle ha, ha, h.ien_after (.inl ha), h.gie_after ha⟩)
  | false =>
    have hlt := s.seq.isLt
    have hge : 6 ≤ s.seq.toNat := hq.resolve_left (by simp [ha])
    have h67 : s.seq = 6 ∨ s.seq = 7 := by bv_omega
    rcases h67 with h6 | h7
    · exact .inl ⟨h6, ha, h.ien_before ha (by simp [h6]), h.gie_before ha, h.insvc_of_armed ha⟩
    · exact .inr (.inl ⟨h7, ha, h.ien_after (.inr h7), h.gie_before ha, h.insvc_of_armed ha⟩)

theorem Consistent.sinceM5 {s : State} (h : Consistent s)
    (hq : s.armed = true ∨ 6 ≤ s.seq.toNat) : SinceM5 s where
  stage := h.stageSinceM5 hq
  ctrl := h.ctrl_final hq
  cnt_le_cmp := h.cnt_le_cmp (hq.imp_right (by omega))
  iflg := h.iflg_bits
  psc := h.psc_range
  resValid := by
    by_contra hv
    obtain ⟨hseq, harmed, -⟩ := h.result_fresh (by simpa using hv)
    simp [hseq, harmed] at hq

/-- The invariant says that the machine is in one of the two stages. -/
theorem consistent_iff (s : State) : Consistent s ↔ BeforeM5 s ∨ SinceM5 s := by
  constructor
  · intro h
    by_cases hq : s.armed = true ∨ 6 ≤ s.seq.toNat
    · exact .inr (h.sinceM5 hq)
    · push Not at hq
      exact .inl (h.beforeM5 (by simpa using hq.1) (by omega))
  · rintro (h | h)
    · exact h.consistent
    · exact h.consistent

theorem beforeM5_reset : BeforeM5 State.reset := by
  constructor <;> decide

/-- Settles O59: the state after reset is one of the first stage. -/
theorem consistentAtReset : Obligations.ConsistentAtReset := beforeM5_reset.consistent

/-- Settles O56, field by field; `PHASE` is derived from `SEQ` and `ARMED`. -/
theorem resetLeavesTheStatedValues : Obligations.ResetLeavesTheStatedValues :=
  ⟨rfl, rfl, by decide, rfl, rfl, rfl, rfl, rfl, rfl, rfl⟩

/-! ### The fields of the model's own do not matter -/

protected theorem Consistent.dropTurn {s : State} (h : Consistent s) : Consistent (dropTurn s) :=
  { h with }

theorem Consistent.withPort {s : State} (h : Consistent s) (p : Option CmdWord) :
    Consistent { s with port := p } :=
  { h with }

/-! ### Commands -/

section
variable {s : State}

/-- A machine that accepts a command is in the first stage. -/
theorem Consistent.beforeM5_of_ready (h : Consistent s) (hr : Ready s) : BeforeM5 s := by
  obtain ⟨hseq, harmed, -⟩ := hr
  exact h.beforeM5 harmed (by simp [hseq])

theorem BeforeM5.resValid_eq_false (h : BeforeM5 s) (hq : s.seq ≠ 0) : s.resValid = false := by
  by_contra hv
  exact hq (h.result (by simpa using hv)).1

/-- SELECT makes valid what it stores, and only that. -/
theorem BeforeM5.select (h : BeforeM5 s) (hr : Ready s) (f : BitVec 32) (hf : f ≠ 0) :
    BeforeM5 { latchSelection f s with resValid := true } :=
  { h with result := fun _ => ⟨hr.1, hf, rfl, rfl⟩ }

/-- Whatever a command leaves in the working registers, the sequence starts in the first stage. -/
theorem BeforeM5.start (h : BeforeM5 s) (hr : Ready s) (f : BitVec 32) (d : BitVec 16)
    (th : BitVec 40) (i : BitVec 3) :
    BeforeM5 { s with freq := f, divr := d, thr := th, idx := i, seq := 1, resValid := false } :=
  { h with
    seq_le := by simp
    ctrl := by simpa [hr.1] using h.ctrl
    result := by simp }

/-! ### The micro-steps -/

theorem BeforeM5.m1 (h : BeforeM5 s) (hq : s.seq = 1) :
    BeforeM5 { s with gie := 0, seq := 2 } :=
  { h with
    gie := rfl
    seq_le := by simp
    ctrl := by simpa [hq] using h.ctrl
    result := by simp [h.resValid_eq_false (by simp [hq])] }

theorem BeforeM5.m2 (h : BeforeM5 s) (hq : s.seq = 2) :
    BeforeM5 { s with ctrl := 0, cnt := 0, seq := 3 } :=
  { h with
    cnt := rfl
    seq_le := by simp
    ctrl := by simp
    result := by simp [h.resValid_eq_false (by simp [hq])] }

theorem BeforeM5.m3 (h : BeforeM5 s) (hq : s.seq = 3) (c : BitVec 16) :
    BeforeM5 { s with cmp := c, seq := 4 } :=
  { h with
    seq_le := by simp
    ctrl := by simpa [hq] using h.ctrl
    result := by simp [h.resValid_eq_false (by simp [hq])] }

theorem BeforeM5.m4 (h : BeforeM5 s) (hq : s.seq = 4) :
    BeforeM5 { s with ctrl := (s.ctrl &&& ctrlUsed) ||| ctcMask, seq := 5 } :=
  { h with
    seq_le := by simp
    ctrl := by simp [show s.ctrl = 0 by simpa [hq] using h.ctrl, ctcMask]
    result := by simp [h.resValid_eq_false (by simp [hq])] }

/-- The value of `CTRL` that M5 leaves: the mode bit with a code of the table (R95). -/
theorem ctrl_with_code_mem (c : BitVec 3) (h : c.toNat ≤ 5) :
    (0x08#8 &&& ctrlUsed) ||| c.setWidth 8 ∈ [0x08#8, 0x09, 0x0A, 0x0B, 0x0C, 0x0D] := by
  revert c; decide

/-- A phase drawn for a divisor lies below it (R111). -/
theorem drawn_phase_lt (c : BitVec 3) (d : Nat) (h : divOf c = some d) (p : BitVec 10) :
    (BitVec.ofNat 10 (p.toNat % d)).toNat < d := by
  obtain ⟨hpos, hle⟩ := divOf_pos c d h
  have hlt := Nat.mod_lt p.toNat hpos
  rw [BitVec.toNat_ofNat, Nat.mod_eq_of_lt (by omega)]
  exact hlt

/-- The clock starts at a phase below its divisor; with no code selected there is none. -/
theorem startClock_psc_lt (c : BitVec 3) (s : State) (hc : s.cs = c) (d : Nat)
    (hd : divOf s.cs = some d) : (startClock c s).psc.toNat < d := by
  rcases startClock_cases c s with ⟨hstop, _⟩ | ⟨_, e, he, hs⟩
  · rcases hstop with h0 | hn
    · exact absurd (hc.trans h0) (divOf_ne_zero _ _ hd)
    · simp [hn] at hd
  · obtain rfl : e = d := Option.some.inj (he.symm.trans hd)
    rw [hs]
    exact drawn_phase_lt _ _ hd _

/-- M5 leads from the first stage to the second. -/
theorem BeforeM5.m5 (h : BeforeM5 s) (hq : s.seq = 5) :
    SinceM5 { startClock (csmap s.divr)
      { s with ctrl := (s.ctrl &&& ctrlUsed) ||| (csmap s.divr).setWidth 8 } with seq := 6 } := by
  have hmode : s.ctrl = 0x08 := by simpa [hq] using h.ctrl
  have hcs : State.cs { s with ctrl := (s.ctrl &&& ctrlUsed) ||| (csmap s.divr).setWidth 8 } =
      csmap s.divr := by
    rw [hmode]
    have hall : ∀ c : BitVec 3,
        ((0x08#8 &&& ctrlUsed) ||| c.setWidth 8).extractLsb' 0 3 = c := by decide
    exact hall _
  have hpsc := startClock_psc_lt _ _ hcs
  obtain ⟨p, n, hframe⟩ := startClock_frame (csmap s.divr)
    { s with ctrl := (s.ctrl &&& ctrlUsed) ||| (csmap s.divr).setWidth 8 }
  rw [hframe] at hpsc ⊢
  exact
    { stage := .inl ⟨rfl, h.armed, h.ien, h.gie, h.insvc⟩
      ctrl := by rw [hmode]; exact ctrl_with_code_mem _ (csmap_toNat_le _)
      cnt_le_cmp := by simp [h.cnt]
      iflg := .inl h.iflg
      psc := hpsc
      resValid := h.resValid_eq_false (by simp [hq]) }

theorem SinceM5.m6 (h : SinceM5 s) (hq : s.seq = 6) :
    SinceM5 { s with ien := cmieMask, seq := 7 } := by
  refine { h with stage := ?_ }
  rcases h.stage with ⟨_, ha, _, hg, hi⟩ | ⟨h7, _⟩ | ⟨h0, _⟩
  · exact .inr (.inl ⟨rfl, ha, rfl, hg, hi⟩)
  · exact absurd (hq.symm.trans h7) (by decide)
  · exact absurd (hq.symm.trans h0) (by decide)

theorem SinceM5.m7 (h : SinceM5 s) (hq : s.seq = 7) :
    SinceM5 { discardWorking { s with gie := 1 } with armed := true, seq := 0 } := by
  refine { h with stage := ?_ }
  rcases h.stage with ⟨h6, _⟩ | ⟨_, _, hien, _, _⟩ | ⟨h0, _⟩
  · exact absurd (hq.symm.trans h6) (by decide)
  · exact .inr (.inr ⟨rfl, rfl, hien, rfl⟩)
  · exact absurd (hq.symm.trans h0) (by decide)

/-! ### The running timer, the interrupt and reset -/

theorem Consistent.sinceM5_of_runs (h : Consistent s) (d : Nat) (hd : divOf s.cs = some d) :
    SinceM5 s := by
  rcases (consistent_iff s).1 h with hb | hs
  · exact absurd (hb.divOf_cs.symm.trans hd) (by simp)
  · exact hs

/-- A tick never takes `CNT` past `CMP` (R28). -/
protected theorem SinceM5.tickCounter (h : SinceM5 s) : SinceM5 (tickCounter s) := by
  rw [tickCounter_eq]
  split_ifs with hmatch
  · exact { h with cnt_le_cmp := by simp, iflg := .inr rfl }
  · have hle := h.cnt_le_cmp
    exact { h with cnt_le_cmp := by bv_omega }

protected theorem Consistent.tickTurn (h : Consistent s) {t : State} (ht : tickTurn s = .next t) :
    Consistent t := by
  rcases (tickTurn_eq_next s t).1 ht with ⟨_, rfl⟩ | ⟨d, ⟨hd, _⟩, rfl⟩
  · exact h
  · exact (h.sinceM5_of_runs d hd).tickCounter.consistent

/-- A reference cycle keeps the phase below the divisor: it starts anew where it would reach it. -/
protected theorem Consistent.cycleTurn (h : Consistent s) {t : State} (ht : cycleTurn s = .next t) :
    Consistent t := by
  rcases (cycleTurn_eq_next s t).1 ht with ⟨_, rfl⟩ | ⟨d, hd, hne, rfl⟩ | ⟨d, ⟨hd, _⟩, _, rfl⟩
  · exact h
  · refine { h with psc_range := fun e he => ?_ }
    obtain rfl : d = e := Option.some.inj (hd.symm.trans he)
    have hlt := h.psc_range d hd
    have hle := (divOf_pos _ _ hd).2
    change (s.psc + 1).toNat < d
    bv_omega
  · have hzero : SinceM5 { s with psc := 0 } :=
      { h.sinceM5_of_runs d hd with psc := fun e he => by simpa using (divOf_pos _ _ he).1 }
    exact hzero.tickCounter.consistent

/-- Taking the interrupt: `GIE = 1` only once armed. -/
protected theorem Consistent.deliverInterrupt (h : Consistent s) :
    Consistent (deliverInterrupt s) := by
  rcases deliverInterrupt_cases s with ⟨_, he⟩ | ⟨hd, he⟩ <;> rw [he]
  · exact h
  · obtain ⟨-, -, hgie, -⟩ := (deliverable_iff s).1 hd
    have harmed : s.armed = true := by
      by_contra ha
      rw [h.gie_before (by simpa using ha)] at hgie
      cases hgie
    exact { h with
      iflg_bits := .inl rfl
      iflg_zero := fun _ _ => rfl
      insvc_armed := fun _ => harmed }

protected theorem Consistent.returnFromInterrupt (h : Consistent s) :
    Consistent (returnFromInterrupt s) :=
  { h with insvc_armed := by simp }

/-- Reset leads to the first stage from every state, of the invariant or not. -/
theorem resetEvent_consistent (s : State) : Consistent (resetEvent s) :=
  BeforeM5.consistent { beforeM5_reset with result := by simp }

end

/-! ### Every step -/

/-- A foreground turn: a command in the first stage, IDLE, which changes nothing, or the micro-step
that `SEQ` names, in its own stage. -/
theorem Consistent.foreground {s t : State} (h : Consistent s) (hn : nextTurn s = .foreground)
    (hst : step s = .next t) : Consistent t := by
  have hu : Consistent (clearPort (dropTurn s)) := h.dropTurn.withPort none
  have before (hq : s.seq ≠ 0) (hle : s.seq.toNat ≤ 5) :
      BeforeM5 (clearPort (dropTurn s)) := hu.beforeM5 (h.armed_of_seq hq) hle
  have since (hle : 6 ≤ s.seq.toNat) : SinceM5 (clearPort (dropTurn s)) :=
    hu.sinceM5 (.inr hle)
  rcases foreground_step_cases s t hn hst with ⟨_, hr, hc⟩ | ⟨_, hm⟩
  · have hb : BeforeM5 (clearPort (dropTurn s)) := hu.beforeM5_of_ready hr
    rcases hc with ⟨f, hf, rfl⟩ | ⟨d, th, rfl⟩ | ⟨f, _, rfl⟩
    · exact (hb.select hr f hf).consistent
    · exact (hb.start hr _ d th _).consistent
    · exact (hb.start hr f _ _ _).consistent
  · rcases hm with ⟨_, rfl⟩ | ⟨hq, rfl⟩ | ⟨hq, rfl⟩ | ⟨hq, rfl⟩ | ⟨hq, rfl⟩ | ⟨hq, rfl⟩ |
      ⟨hq, rfl⟩ | ⟨hq, rfl⟩
    · exact hu
    · exact ((before (by simp [hq]) (by simp [hq])).m1 hq).consistent
    · exact ((before (by simp [hq]) (by simp [hq])).m2 hq).consistent
    · exact ((before (by simp [hq]) (by simp [hq])).m3 hq _).consistent
    · exact ((before (by simp [hq]) (by simp [hq])).m4 hq).consistent
    · exact ((before (by simp [hq]) (by simp [hq])).m5 hq).consistent
    · exact ((since (by simp [hq])).m6 hq).consistent
    · exact ((since (by simp [hq])).m7 hq).consistent

/-- Settles O60, turn by turn: each keeps its stage of the invariant, but for M5 and reset. -/
theorem everyStepKeepsConsistent : Obligations.EveryStepKeepsConsistent := by
  intro s t h hst
  have hd : Consistent (dropTurn s) := h.dropTurn
  rcases step_eq_next s t hst with
    ⟨hn, _⟩ | ⟨w, _, rfl⟩ | ⟨_, ht⟩ | ⟨_, ht⟩ | ⟨_, rfl⟩ | ⟨_, rfl⟩ | ⟨_, rfl⟩
  · exact h.foreground hn hst
  · exact hd.withPort (some w)
  · exact hd.tickTurn ht
  · exact hd.cycleTurn ht
  · exact hd.deliverInterrupt
  · exact hd.returnFromInterrupt
  · exact resetEvent_consistent _

end Sys2Proof.Machine
end

section
/-! The turns and the runs (spec 20_memory.md section 7, R46): where a turn comes from, what a step
does with it, how runs compose, and which turn a run comes to. -/

namespace Sys2Proof.Machine

/-! ### One turn -/

theorem step_of_nextTurn {s : State} {x : Turn} (h : nextTurn s = x) :
    step s = runTurn x (dropTurn s) := by
  rw [step, h]

/-- Settles O6: taking the turn changes nothing of what the foreground fetches. -/
theorem stepRunsTheDecodedInstruction : Obligations.StepRunsTheDecodedInstruction := by
  intro s i hn hd
  have hfetch : decode (fetch (dropTurn s)) = .ok i := hd
  simp only [step_of_nextTurn hn, runTurn, foregroundTurn, hfetch, clearPort]

/-- With nothing scheduled the first turn of a free round is taken and the others are scheduled. -/
theorem dropTurn_nil (s : State) (h : s.schedule = []) :
    dropTurn s = { s with
      schedule := (fairRound (Config.freeRound s.rounds)).tail, rounds := s.rounds + 1 } := by
  simp [dropTurn, turnsToCome_nil s h, h]

theorem mem_fairRound_of_ne_tick (r : List Turn) (x : Turn) (hx : x ∈ agentTurns) (ht : x ≠ .tick) :
    x ∈ fairRound r :=
  (fairRound_serves r x hx).resolve_right fun h => ht h.1

/-- Settles O11: the free round is the one that is fair to every agent. -/
theorem turnsComeFromTheSchedule : Obligations.TurnsComeFromTheSchedule := by
  refine ⟨fun s x rest h => ⟨nextTurn_cons s x rest h, dropTurn_cons s x rest h⟩, fun s h => ?_⟩
  refine ⟨fairRound (Config.freeRound s.rounds),
    mem_fairRound_of_ne_tick _ _ (by decide) (by decide), ?_,
    mem_fairRound_of_ne_tick _ _ (by decide) (by decide),
    mem_fairRound_of_ne_tick _ _ (by decide) (by decide), ?_, dropTurn_nil s h⟩
  · exact (fairRound_serves _ .tick (by decide)).imp_right And.right
  · rw [← turnsToCome_nil s h]
    exact turnsToCome_eq s

/-! ### Runs of scheduled turns -/

/-- Runs compose: what follows a run starts where it ended. -/
theorem run_add (m n : Nat) (s t : State) (h : Host.Core.run Sys2Proof.core m s = .next t) :
    Host.Core.run Sys2Proof.core (m + n) s = Host.Core.run Sys2Proof.core n t := by
  induction m generalizing s with
  | zero =>
    obtain rfl : s = t := Host.Outcome.next.inj h
    rw [Nat.zero_add]
  | succ m ih =>
    obtain ⟨u, hu, hrun⟩ := run_succ_eq_next m s t h
    rw [Nat.add_right_comm, run_succ_of_next _ s u hu, ih u hrun]

/-- A run of as many steps as there are turns in front takes these turns and leaves the others. -/
theorem run_schedule (xs rest : List Turn) (s t : State) (hs : s.schedule = xs ++ rest)
    (h : Host.Core.run Sys2Proof.core xs.length s = .next t) : t.schedule = rest := by
  induction xs generalizing s with
  | nil =>
    obtain rfl : s = t := Host.Outcome.next.inj h
    exact hs
  | cons x xs ih =>
    obtain ⟨u, hu, hrun⟩ := run_succ_eq_next xs.length s t h
    refine ih u ?_ hrun
    rw [(step_schedule s u hu).1, dropTurn_cons s x (xs ++ rest) hs]

/-- Settles O12: a scheduled turn is the next one, and runs compose. -/
theorem everyInterleavingIsARun : Obligations.EveryInterleavingIsARun := by
  refine ⟨fun s x rest => ?_, fun s t u xs ys rest hx hy => ?_⟩
  · rw [step_of_nextTurn (nextTurn_cons _ x rest rfl), dropTurn_cons _ x rest rfl]
  · have ht : t.schedule = ys ++ rest := run_schedule xs (ys ++ rest) _ t rfl hx
    exact ⟨ht, run_schedule ys rest t u ht hy, (run_add _ _ _ t hx).trans hy⟩

/-! ### The turns ahead, and which of them a run comes to -/

/-- The turns that are certain to come if no step is refused: those scheduled, then the next free
round. -/
def turnsAhead (s : State) : List Turn := s.schedule ++ fairRound (Config.freeRound s.rounds)

/-- The next turn is the first of those ahead, and the others are ahead of the next state. -/
theorem turnsAhead_prefix (s t : State) (h : step s = .next t) :
    turnsAhead s <+: nextTurn s :: turnsAhead t := by
  obtain ⟨hschedule, hrounds⟩ := step_schedule s t h
  cases hs : s.schedule with
  | nil =>
    have hahead : turnsAhead s = nextTurn s :: t.schedule := by
      rw [hschedule, ← turnsToCome_eq, turnsToCome_nil s hs, turnsAhead, hs, List.nil_append]
    exact ⟨fairRound (Config.freeRound t.rounds), by rw [hahead]; rfl⟩
  | cons x ts =>
    rw [dropTurn_cons s x ts hs] at hschedule hrounds
    simp [turnsAhead, hs, hschedule, hrounds, nextTurn_cons s x ts hs]

theorem head_turnsAhead (s : State) (x : Turn) (xs : List Turn) (h : x :: xs <+: turnsAhead s) :
    nextTurn s = x := by
  obtain ⟨ys, hys⟩ := h
  cases hs : s.schedule with
  | nil =>
    have hto := turnsToCome_eq s
    rw [turnsToCome_nil s hs] at hto
    simp only [turnsAhead, hs, hto, List.nil_append, List.cons_append, List.cons.injEq] at hys
    exact hys.1.symm
  | cons y ts =>
    simp only [turnsAhead, hs, List.cons_append, List.cons.injEq] at hys
    rw [nextTurn_cons s y ts hs, hys.1]

/-- Whatever every turn but those of `q` keeps holds when the first turn of `q` comes, and one comes
within the turns ahead if it is among them, unless a step before it is refused. -/
theorem reaches_turn (P : State → Prop) (q : Turn → Prop)
    (hkeep : ∀ s t, P s → ¬ q (nextTurn s) → step s = .next t → P t) (xs : List Turn) (s : State)
    (hs : P s) (hxs : xs <+: turnsAhead s) (hq : ∃ x ∈ xs, q x) :
    ∃ k, k ≤ xs.length ∧ ((∃ r, Host.Core.run Sys2Proof.core k s = .refused r) ∨
      ∃ t, Host.Core.run Sys2Proof.core k s = .next t ∧ P t ∧ q (nextTurn t)) := by
  induction xs generalizing s with
  | nil => simp at hq
  | cons x xs ih =>
    have hx : nextTurn s = x := head_turnsAhead s x xs hxs
    by_cases hqx : q x
    · exact ⟨0, Nat.zero_le _, .inr ⟨s, run_zero s, hs, hx ▸ hqx⟩⟩
    rcases outcome_next_or_refused (step s) with ⟨t, ht⟩ | ⟨r, hr⟩
    · have hpre : xs <+: turnsAhead t := by
        have := hxs.trans (turnsAhead_prefix s t ht)
        rwa [hx, List.cons_prefix_cons, and_iff_right rfl] at this
      obtain ⟨k, hk, hrun⟩ := ih t (hkeep s t hs (hx ▸ hqx) ht) hpre (by simpa [hqx] using hq)
      refine ⟨k + 1, Nat.succ_le_succ hk, ?_⟩
      rwa [run_succ_of_next k s t ht]
    · refine ⟨1, by simp, .inl ⟨r, ?_⟩⟩
      have hcore : Sys2Proof.core.step s = .refused r := hr
      simp only [Host.Core.run, hcore]

/-- Every agent has a turn among those ahead. -/
theorem agentTurn_ahead (s : State) (x : Turn) (hx : x ∈ agentTurns) :
    ∃ y ∈ turnsAhead s, y = x ∨ (x = .tick ∧ y = .cycle) := by
  rcases fairRound_serves (Config.freeRound s.rounds) x hx with hm | ⟨ht, hm⟩
  · exact ⟨x, List.mem_append_right _ hm, .inl rfl⟩
  · exact ⟨.cycle, List.mem_append_right _ hm, .inr ⟨ht, rfl⟩⟩

/-- Settles O13: each agent has a turn among those ahead, and the run comes to it. -/
theorem everyAgentMovesAgain : Obligations.EveryAgentMovesAgain := by
  intro s x hx
  obtain ⟨k, hk, hrun⟩ := reaches_turn (fun _ => True) (fun y => y = x ∨ (x = .tick ∧ y = .cycle))
    (fun _ _ _ _ _ => trivial) (turnsAhead s) s trivial List.prefix_rfl (agentTurn_ahead s x hx)
  rw [turnsAhead, List.length_append] at hk
  exact ⟨k, hk, hrun.imp_right fun ⟨t, ht, _, hturn⟩ => ⟨t, ht, hturn⟩⟩

end Sys2Proof.Machine
end

section
/-! The interrupt over the states of the invariant (spec 20_memory.md R46 and R48, 60_exceptions.md
R131): delivery is enabled only once armed, and stays enabled until it is taken. -/

namespace Sys2Proof.Machine

/-- `GIE = 1`, which delivery asks for, is the work of M7, the last step of the sequence. -/
theorem Consistent.armed_of_deliverable {s : State} (h : Consistent s) (hd : s.deliverable = true) :
    s.armed = true := by
  obtain ⟨-, -, hgie, -⟩ := (deliverable_iff s).1 hd
  by_contra ha
  rw [h.gie_before (by simpa using ha)] at hgie
  cases hgie

theorem ctc_of_final_ctrl (s : State) (h : s.ctrl ∈ [0x08#8, 0x09, 0x0A, 0x0B, 0x0C, 0x0D]) :
    s.ctc = true := by
  have hall : ∀ c ∈ [0x08#8, 0x09, 0x0A, 0x0B, 0x0C, 0x0D], c.getLsbD 3 = true := by decide
  exact hall s.ctrl h

/-- Settles O51: only an enabled delivery invokes the callback, and only once armed is it
enabled. -/
theorem handlerSeesOnlyArmedRegisters : Obligations.HandlerSeesOnlyArmedRegisters := by
  intro s t hs hst hne
  obtain ⟨-, hd, -⟩ := (step_invocations s t hst).resolve_left hne
  have harmed : s.armed = true := hs.armed_of_deliverable hd
  have hseq : s.seq = 0 := hs.armed_idle harmed
  have hctrl := hs.ctrl_final (.inl harmed)
  obtain ⟨-, hcmie, hgie, -⟩ := (deliverable_iff s).1 hd
  exact ⟨(phase_eq_armed s).2 ⟨hseq, harmed⟩, ctc_of_final_ctrl s hctrl, hcmie, hgie, hseq,
    hs.cnt_le_cmp (.inl harmed), hctrl⟩

/-- A tick sets the flag or leaves it. -/
theorem tickCounter_deliverable (s : State) (h : s.deliverable = true) :
    (tickCounter s).deliverable = true := by
  rw [deliverable_iff] at h
  obtain ⟨hcmf, hcmie, hgie, hinsvc⟩ := h
  rw [tickCounter_eq, deliverable_iff]
  split_ifs
  · have hflag : cmfMask.getLsbD 1 = true := by decide
    exact ⟨hflag, hcmie, hgie, hinsvc⟩
  · exact ⟨hcmf, hcmie, hgie, hinsvc⟩

/-- Once armed no command is accepted and `SEQ` is 0, so the foreground's turn is IDLE. -/
theorem foreground_step_of_armed (s t : State) (hs : Consistent s) (ha : s.armed = true)
    (hn : nextTurn s = .foreground) (h : step s = .next t) : t = clearPort (dropTurn s) := by
  have hseq : s.seq = 0 := hs.armed_idle ha
  rcases foreground_step_cases s t hn h with ⟨_, ⟨_, ha', _⟩, _⟩ | ⟨_, hm⟩
  · exact absurd (ha.symm.trans ha') (by decide)
  · simpa [hseq] using hm

/-- No turn but DELIVER itself and reset disables an enabled delivery. -/
theorem deliverable_step (s t : State) (hs : Consistent s) (hd : s.deliverable = true)
    (hdel : nextTurn s ≠ .deliver) (hres : nextTurn s ≠ .reset) (h : step s = .next t) :
    t.deliverable = true := by
  have hdrop : (dropTurn s).deliverable = true := hd
  rcases step_eq_next s t h with
    ⟨hn, _⟩ | ⟨w, _, rfl⟩ | ⟨_, ht⟩ | ⟨_, ht⟩ | ⟨hn, _⟩ | ⟨_, rfl⟩ | ⟨hn, _⟩
  · rw [foreground_step_of_armed s t hs (hs.armed_of_deliverable hd) hn h]
    exact hd
  · exact hd
  · rcases (tickTurn_eq_next _ _).1 ht with ⟨_, rfl⟩ | ⟨_, _, rfl⟩
    · exact hd
    · exact tickCounter_deliverable _ hdrop
  · rcases (cycleTurn_eq_next _ _).1 ht with ⟨_, rfl⟩ | ⟨_, _, _, rfl⟩ | ⟨_, _, _, rfl⟩
    · exact hd
    · exact hd
    · exact tickCounter_deliverable { dropTurn s with psc := 0 } hd
  · exact absurd hn hdel
  · obtain ⟨hcmf, hcmie, hgie, -⟩ := (deliverable_iff s).1 hd
    exact (deliverable_iff _).2 ⟨hcmf, hcmie, hgie, rfl⟩
  · exact absurd hn hres

theorem step_deliver_of_deliverable (s : State) (hn : nextTurn s = .deliver)
    (hd : s.deliverable = true) :
    step s = .next { dropTurn s with
      iflg := 0, insvc := true, invocations := s.invocations + 1 } := by
  rcases deliverInterrupt_cases (dropTurn s) with ⟨hdrop, _⟩ | ⟨_, htaken⟩
  · exact absurd (hd.symm.trans hdrop) (by decide)
  · rw [step_of_nextTurn hn, runTurn, htaken, dropTurn_invocations]

/-- A state of the invariant in which an enabled delivery waits, after `n` invocations. -/
structure AwaitsDelivery (n : Nat) (s : State) : Prop where
  consistent : Consistent s
  deliverable : s.deliverable = true
  invocations : s.invocations = n

/-- The delivery waits through every turn but DELIVER and reset. -/
theorem AwaitsDelivery.step {n : Nat} {s t : State} (hs : AwaitsDelivery n s)
    (hq : ¬ (nextTurn s = .deliver ∨ nextTurn s = .reset)) (h : step s = .next t) :
    AwaitsDelivery n t := by
  push Not at hq
  obtain ⟨hdel, hres⟩ := hq
  refine ⟨everyStepKeepsConsistent s t hs.consistent h,
    deliverable_step s t hs.consistent hs.deliverable hdel hres h, ?_⟩
  have hsame := (step_invocations s t h).resolve_right fun hd => hdel hd.1
  exact hsame.trans hs.invocations

/-- Settles O14: the delivery waits through the turns ahead, and one of them is DELIVER. -/
theorem enabledDeliveryIsEventuallyTaken : Obligations.EnabledDeliveryIsEventuallyTaken := by
  refine ⟨fun s t hs hd hst => ?_, fun s hs hd => ?_⟩
  · by_cases hq : nextTurn s = .deliver ∨ nextTurn s = .reset
    · rcases hq with hdel | hres
      · rw [step_deliver_of_deliverable s hdel hd, Host.Outcome.next.injEq] at hst
        exact .inl ⟨hdel, hst ▸ rfl⟩
      · exact .inr (.inl hres)
    · obtain ⟨-, hd', hinv⟩ := AwaitsDelivery.step ⟨hs, hd, rfl⟩ hq hst
      exact .inr (.inr ⟨hd', hinv⟩)
  · obtain ⟨y, hy, hturn⟩ := agentTurn_ahead s .deliver (by decide)
    obtain rfl : y = .deliver := by simpa using hturn
    obtain ⟨k, -, hrun⟩ := reaches_turn (AwaitsDelivery s.invocations)
      (fun x => x = .deliver ∨ x = .reset) (fun _ _ hs' hq hst => hs'.step hq hst) (turnsAhead s) s
      ⟨hs, hd, rfl⟩ List.prefix_rfl ⟨_, hy, .inl rfl⟩
    refine ⟨k, hrun.imp_right ?_⟩
    rintro ⟨t, ht, ⟨-, hd', hinv⟩, hdel | hres⟩
    · exact ⟨t, _, ht, step_deliver_of_deliverable t hdel hd', hinv, .inl ⟨hdel, by rw [hinv]⟩⟩
    · exact ⟨t, _, ht, step_of_nextTurn hres, hinv, .inr hres⟩

end Sys2Proof.Machine
end

section
/-! The register space (spec 20_memory.md R40, R44, R52): what a read returns after a write, and
which steps write which register. -/

namespace Sys2Proof.Machine

/-! ### Reading after writing -/

@[simp] theorem readGie_writeGie (s : State) (v : BitVec 8) : readGie (writeGie s v) = v &&& 1 := by
  have hlt : v.toNat % 2 < 256 := by omega
  apply BitVec.eq_of_toNat_eq
  simp [readGie, Nat.and_one_is_mod, Nat.mod_eq_of_lt hlt]

/-- A register holds what is written, in its size and in the bits that exist. -/
theorem memRead_memWrite_same (s : State) (r : Reg) (v : Nat) :
    memRead (memWrite s r v) r = (v % 2 ^ (8 * r.size)) &&& r.used := by
  cases r with
  | cnt | cmp =>
    have hall : v % 2 ^ 16 &&& 2 ^ 16 - 1 = v % 2 ^ 16 := by
      rw [Nat.and_two_pow_sub_one_eq_mod, Nat.mod_mod]
    simpa [memRead, memWrite, Reg.size, Reg.used] using hall.symm
  | ctrl | ien | iflg | gie =>
    simp [memRead, memWrite, Reg.size, Reg.used, ctrlUsed, cmieMask, cmfMask]

theorem memRead_memWrite_of_ne (s : State) (r q : Reg) (v : Nat) (h : q ≠ r) :
    memRead (memWrite s r v) q = memRead s q := by
  cases r <;> cases q
  case ctrl.ctrl | cnt.cnt | cmp.cmp | ien.ien | iflg.iflg | gie.gie => exact absurd rfl h
  all_goals rfl

/-- A write goes to the register space alone. -/
theorem memWrite_frame (s : State) (r : Reg) (v : Nat) :
    memWrite s r v = { s with
      ctrl := (memWrite s r v).ctrl, cnt := (memWrite s r v).cnt, cmp := (memWrite s r v).cmp,
      ien := (memWrite s r v).ien, iflg := (memWrite s r v).iflg,
      gie := (memWrite s r v).gie } := by
  cases r <;> rfl

/-- Settles O53, by what a write does to the written register, to the others and to the rest. -/
theorem registerReadAfterWrite : Obligations.RegisterReadAfterWrite := fun s r v =>
  ⟨memRead_memWrite_same s r v, fun q hq => memRead_memWrite_of_ne s r q v hq, memWrite_frame s r v⟩

/-! ### The writers of each register -/

/-- A register that reads otherwise holds another value. -/
theorem register_ne_of_memRead_ne (s t : State) :
    (memRead t .ctrl ≠ memRead s .ctrl → t.ctrl ≠ s.ctrl) ∧
    (memRead t .cmp ≠ memRead s .cmp → t.cmp ≠ s.cmp) ∧
    (memRead t .ien ≠ memRead s .ien → t.ien ≠ s.ien) ∧
    (memRead t .gie ≠ memRead s .gie → t.gie ≠ s.gie) ∧
    (memRead t .cnt ≠ memRead s .cnt → t.cnt ≠ s.cnt) ∧
    (memRead t .iflg ≠ memRead s .iflg → t.iflg ≠ s.iflg) := by
  refine ⟨mt fun h => ?_, mt fun h => ?_, mt fun h => ?_, mt fun h => ?_, mt fun h => ?_,
    mt fun h => ?_⟩ <;>
  simp only [memRead, readCtrl, readCmp, readIen, readGie, readCnt, readIflg, h]

/-- Starting the clock writes no register of the register space. -/
@[simp] theorem startClock_registers (c : BitVec 3) (s : State) :
    (startClock c s).ctrl = s.ctrl ∧ (startClock c s).cmp = s.cmp ∧ (startClock c s).ien = s.ien ∧
    (startClock c s).gie = s.gie ∧ (startClock c s).cnt = s.cnt ∧
    (startClock c s).iflg = s.iflg := by
  obtain ⟨p, n, h⟩ := startClock_frame c s
  simp [h]

/-- Which registers a foreground turn writes: none for a command or IDLE, and its own for each
micro-step. -/
theorem foreground_step_writes (s t : State) (hn : nextTurn s = .foreground)
    (h : step s = .next t) :
    (t.ctrl ≠ s.ctrl → s.port = none ∧ (s.seq = 2 ∨ s.seq = 4 ∨ s.seq = 5)) ∧
    (t.cmp ≠ s.cmp → s.port = none ∧ s.seq = 3) ∧
    (t.ien ≠ s.ien → s.port = none ∧ s.seq = 6) ∧
    (t.gie ≠ s.gie → s.port = none ∧ (s.seq = 1 ∨ s.seq = 7)) ∧
    (t.cnt ≠ s.cnt → s.port = none ∧ s.seq = 2) ∧
    t.iflg = s.iflg := by
  rcases foreground_step_cases s t hn h with ⟨_, _, hc⟩ | ⟨hp, hm⟩
  · rcases hc with ⟨f, _, rfl⟩ | ⟨d, th, rfl⟩ | ⟨f, _, rfl⟩ <;> simp
  · rcases hm with ⟨hq, rfl⟩ | ⟨hq, rfl⟩ | ⟨hq, rfl⟩ | ⟨hq, rfl⟩ | ⟨hq, rfl⟩ | ⟨hq, rfl⟩ |
      ⟨hq, rfl⟩ | ⟨hq, rfl⟩ <;> simp [hp, hq]

/-- Settles O54, from what a foreground turn writes and what the other turns leave alone. -/
theorem registersHaveOnlyTheirWriters : Obligations.RegistersHaveOnlyTheirWriters := by
  intro s t h hr
  obtain ⟨rctrl, rcmp, rien, rgie, rcnt, riflg⟩ := register_ne_of_memRead_ne s t
  by_cases hf : nextTurn s = .foreground
  · obtain ⟨wctrl, wcmp, wien, wgie, wcnt, wiflg⟩ := foreground_step_writes s t hf h
    exact ⟨fun hne => ⟨hf, wctrl (rctrl hne)⟩, fun hne => ⟨hf, wcmp (rcmp hne)⟩,
      fun hne => ⟨hf, wien (rien hne)⟩, fun hne => ⟨hf, wgie (rgie hne)⟩,
      fun hne => .inl ⟨hf, wcnt (rcnt hne)⟩, fun hne => absurd wiflg (riflg hne)⟩
  · obtain ⟨-, hctrl, hcmp, hien, hgie, -, hiflg, hcnt⟩ := hardware_step_frame s t hf hr h
    exact ⟨fun hne => absurd hctrl (rctrl hne), fun hne => absurd hcmp (rcmp hne),
      fun hne => absurd hien (rien hne), fun hne => absurd hgie (rgie hne),
      fun hne => .inr (hcnt (rcnt hne)), fun hne => hiflg (riflg hne)⟩

end Sys2Proof.Machine
end

section
/-! The encoding (spec 30_encoding.md R60, R61, R65): decoding undoes encoding and encoding undoes
decoding, and the rows of R61 as masks and matches. -/

namespace Sys2Proof

/-! ### From an instruction to its word and back -/

/-- Settles O1, instruction by instruction: its word selects its row, and the fields read back its
operands. -/
theorem decodeOfEncodeIsTheInstruction : Obligations.DecodeOfEncodeIsTheInstruction := by
  intro i
  cases i with
  | reserved body =>
    simpa [decode, encode] using decodeCommand_of_reserved _ (rowReserved_selects_encodeReserved body)
  | select freq =>
    simpa [decode, encode] using decodeCommand_of_select _ (rowSelect_selects_encodeF freq)
  | arm d th => simpa [decode, encode] using decodeCommand_of_arm _ (rowArm_selects_encodeA d th)
  | configure freq =>
    simpa [decode, encode] using decodeCommand_of_configure _ (rowConfigure_selects_encodeF freq)
  | idle | m1 | m2 | m3 | m4 | m5 | m6 | m7 => rfl

/-! ### From a word to its instruction and back -/

/-- Two words that a row selects are one word when they agree in the bits the row leaves free. -/
theorem Row.eq_of_selects (r : Row) (v w : CmdWord) (hv : r.selects v = true)
    (hw : r.selects w = true)
    (hfree : ∀ i < 64, (BitVec.ofNat 64 r.mask).getLsbD i = false → v.getLsbD i = w.getLsbD i) :
    v = w := by
  apply BitVec.eq_of_getLsbD_eq
  intro i hi
  cases hm : (BitVec.ofNat 64 r.mask).getLsbD i with
  | false => exact hfree i hi hm
  | true => rw [r.selects_bit v hv i hm, r.selects_bit w hw i hm]

theorem lt_of_free_formatF (i : Nat) (hi : i < 64)
    (hm : (0xFFFFFFFF00000000#64).getLsbD i = false) : i < 32 := by
  revert i; decide

theorem lt_of_free_formatA (i : Nat) (hi : i < 64)
    (hm : (0xFF00000000000000#64).getLsbD i = false) : i < 56 := by
  revert i; decide

theorem lt_of_free_reserved (i : Nat) (hi : i < 64)
    (hm : (0xC000000000000000#64).getLsbD i = false) : i < 62 := by
  revert i; decide

/-- Bits 31:0 of a format F word are those of its `FREQ`. -/
theorem encodeF_freqField_getLsbD (op : BitVec 2) (w : CmdWord) (i : Nat) (hi : i < 32) :
    (encodeF op (freqField w)).getLsbD i = w.getLsbD i := by
  simp [encodeF_getLsbD, freqField, hi]

/-- Bits 55:0 of a format A word are those of its `DIVISOR` and its `THRESH`. -/
theorem encodeA_fields_getLsbD (op : BitVec 2) (w : CmdWord) (i : Nat) (hi : i < 56) :
    (encodeA op (divisorField w) (threshField w)).getLsbD i = w.getLsbD i := by
  rw [encodeA_getLsbD]
  split_ifs with h40
  · simp [threshField, h40]
  · have hlt : i - 40 < 16 := by omega
    have hadd : 40 + (i - 40) = i := by omega
    simp [divisorField, hlt, hadd]

theorem encodeF_of_rowSelect (w : CmdWord) (h : rowSelect.selects w = true) :
    encodeF 1 (freqField w) = w :=
  rowSelect.eq_of_selects _ w (rowSelect_selects_encodeF _) h fun i hi hm =>
    encodeF_freqField_getLsbD 1 w i (lt_of_free_formatF i hi hm)

theorem encodeF_of_rowConfigure (w : CmdWord) (h : rowConfigure.selects w = true) :
    encodeF 3 (freqField w) = w :=
  rowConfigure.eq_of_selects _ w (rowConfigure_selects_encodeF _) h fun i hi hm =>
    encodeF_freqField_getLsbD 3 w i (lt_of_free_formatF i hi hm)

theorem encodeA_of_rowArm (w : CmdWord) (h : rowArm.selects w = true) :
    encodeA 2 (divisorField w) (threshField w) = w :=
  rowArm.eq_of_selects _ w (rowArm_selects_encodeA _ _) h fun i hi hm =>
    encodeA_fields_getLsbD 2 w i (lt_of_free_formatA i hi hm)

theorem encodeReserved_of_rowReserved (w : CmdWord) (h : rowReserved.selects w = true) :
    encodeReserved (reservedField w) = w :=
  rowReserved.eq_of_selects _ w (rowReserved_selects_encodeReserved _) h fun i hi hm => by
    simp [encodeReserved_getLsbD, reservedField, lt_of_free_reserved i hi hm]

/-- What a word decodes to: the instruction of the row it selects, or an error if it selects none. -/
theorem decodeCommand_rows (w : CmdWord) :
    (rowReserved.selects w = true ∧ decodeCommand w = .ok (.reserved (reservedField w))) ∨
    (rowSelect.selects w = true ∧ decodeCommand w = .ok (.select (freqField w))) ∨
    (rowArm.selects w = true ∧
      decodeCommand w = .ok (.arm (divisorField w) (threshField w))) ∨
    (rowConfigure.selects w = true ∧ decodeCommand w = .ok (.configure (freqField w))) ∨
    ((rowReserved.selects w = false ∧ rowSelect.selects w = false ∧ rowArm.selects w = false ∧
      rowConfigure.selects w = false) ∧ ∃ e, decodeCommand w = .error e) := by
  by_cases hr : rowReserved.selects w = true
  · exact .inl ⟨hr, decodeCommand_of_reserved w hr⟩
  by_cases hs : rowSelect.selects w = true
  · exact .inr (.inl ⟨hs, decodeCommand_of_select w hs⟩)
  by_cases ha : rowArm.selects w = true
  · exact .inr (.inr (.inl ⟨ha, decodeCommand_of_arm w ha⟩))
  by_cases hc : rowConfigure.selects w = true
  · exact .inr (.inr (.inr (.inl ⟨hc, decodeCommand_of_configure w hc⟩)))
  simp only [Bool.not_eq_true] at hr hs ha hc
  refine .inr (.inr (.inr (.inr ⟨⟨hr, hs, ha, hc⟩, ?_⟩)))
  by_cases hop : opField w = 2#2
  · exact ⟨.formatAZeroBits, by simp [decodeCommand, hr, hs, ha, hc, hop]⟩
  · exact ⟨.formatFZeroBits, by simp [decodeCommand, hr, hs, ha, hc, hop]⟩

theorem encode_of_decodeCommand (w : CmdWord) (i : Instr) (h : decodeCommand w = .ok i) :
    encode i = .command w := by
  rcases decodeCommand_rows w with ⟨hw, hd⟩ | ⟨hw, hd⟩ | ⟨hw, hd⟩ | ⟨hw, hd⟩ | ⟨_, e, hd⟩
  · obtain rfl := Except.ok.inj (hd.symm.trans h)
    exact congrArg Fetched.command (encodeReserved_of_rowReserved w hw)
  · obtain rfl := Except.ok.inj (hd.symm.trans h)
    exact congrArg Fetched.command (encodeF_of_rowSelect w hw)
  · obtain rfl := Except.ok.inj (hd.symm.trans h)
    exact congrArg Fetched.command (encodeA_of_rowArm w hw)
  · obtain rfl := Except.ok.inj (hd.symm.trans h)
    exact congrArg Fetched.command (encodeF_of_rowConfigure w hw)
  · cases hd.symm.trans h

theorem encode_decodeSeq (c : SeqCode) : encode (decodeSeq c) = .sequencer c := by
  revert c; decide

/-- Settles O2: the row fixes the bits of its mask and the operands are all the others; a code is
the code of its step. -/
theorem encodeOfDecodeIsTheWord : Obligations.EncodeOfDecodeIsTheWord := by
  intro f i h
  cases f with
  | command w => exact encode_of_decodeCommand w i h
  | sequencer c =>
    obtain rfl := Except.ok.inj h
    exact encode_decodeSeq c

/-! ### The rows as masks and matches, the fields as shifts and truncations -/

theorem freqField_eq (w : CmdWord) : freqField w = w.setWidth 32 := by
  rw [freqField, BitVec.setWidth_eq_extractLsb' (by decide)]

theorem threshField_eq (w : CmdWord) : threshField w = w.setWidth 40 := by
  rw [threshField, BitVec.setWidth_eq_extractLsb' (by decide)]

theorem reservedField_eq (w : CmdWord) : reservedField w = w.setWidth 62 := by
  rw [reservedField, BitVec.setWidth_eq_extractLsb' (by decide)]

theorem divisorField_eq (w : CmdWord) : divisorField w = (w >>> 40).setWidth 16 := by
  apply BitVec.eq_of_getLsbD_eq
  intro i hi
  simp [divisorField, hi]

/-- Settles O3, row by row; a word that meets no mask selects no row. -/
theorem commandWordSelectsItsRow : Obligations.CommandWordSelectsItsRow := by
  intro w
  simp only [ne_eq, ← rowSelect_selects_iff, ← rowArm_selects_iff, ← rowConfigure_selects_iff,
    ← rowReserved_selects_iff, ← freqField_eq, ← divisorField_eq, ← threshField_eq,
    ← reservedField_eq]
  refine ⟨decodeCommand_of_select w, decodeCommand_of_arm w, decodeCommand_of_configure w,
    decodeCommand_of_reserved w, fun hs ha hc hr => ?_⟩
  rcases decodeCommand_rows w with ⟨hw, _⟩ | ⟨hw, _⟩ | ⟨hw, _⟩ | ⟨hw, _⟩ | ⟨_, herror⟩
  · exact absurd hw hr
  · exact absurd hw hs
  · exact absurd hw ha
  · exact absurd hw hc
  · exact herror

/-- Settles O5, code by code. -/
theorem sequencerCodesSelectTheirStep : Obligations.SequencerCodesSelectTheirStep :=
  ⟨rfl, rfl, rfl, rfl, rfl, rfl, rfl, rfl⟩

end Sys2Proof
end

section
/-! Commands and placed words (spec 30_encoding.md R60, R65, R69, R72): which words the port accepts
and when, what a placed word runs, and the two rows with no effect. -/

namespace Sys2Proof.Machine

/-- Settles O9. -/
theorem reservedRowIsRefused : Obligations.ReservedRowIsRefused := fun _ _ => rfl

/-- Settles O26: IDLE's own code is all that it asks for. -/
theorem idleChangesNothing : Obligations.IdleChangesNothing := fun s h =>
  (exec_idle_eq_next s s).2 ⟨h, rfl⟩

/-! ### A placed word -/

/-- The row's number of bits says where a word is fetched from. -/
theorem fetchedOfTable_eq_some (nbits w : Nat) (f : Fetched) (h : fetchedOfTable nbits w = some f) :
    (nbits = 64 ∧ f = .command (BitVec.ofNat 64 w)) ∨
    (nbits ≠ 64 ∧ f = .sequencer (BitVec.ofNat 3 w)) := by
  unfold fetchedOfTable at h
  split_ifs at h with h64 h3
  · exact .inl ⟨h64.1, (Option.some.inj h).symm⟩
  · exact .inr ⟨by omega, (Option.some.inj h).symm⟩

theorem decodeTableWord_eq_some (nbits w : Nat) (i : Instr) (h : decodeTableWord nbits w = some i) :
    ∃ f, fetchedOfTable nbits w = some f ∧ decode f = .ok i := by
  unfold decodeTableWord at h
  split at h
  next => cases h
  next f hf =>
    split at h
    next j hj => exact ⟨f, hf, by rw [hj, Option.some.inj h]⟩
    next => cases h

/-- A placed command word is run with the port empty. -/
theorem step_placeFetched_command (s : State) (w : CmdWord) (i : Instr)
    (h : decode (.command w) = .ok i) :
    step (placeFetched s (.command w)) = exec i { s with port := none } := by
  rw [stepRunsTheDecodedInstruction (placeFetched s (.command w)) i rfl h,
    dropTurn_cons _ .foreground s.schedule rfl]
  rfl

/-- A placed sequencer code is run with the port empty and `SEQ` holding it. -/
theorem step_placeFetched_sequencer (s : State) (c : SeqCode) (i : Instr)
    (h : decode (.sequencer c) = .ok i) :
    step (placeFetched s (.sequencer c)) = exec i { s with port := none, seq := c } := by
  rw [stepRunsTheDecodedInstruction (placeFetched s (.sequencer c)) i rfl h,
    dropTurn_cons _ .foreground s.schedule rfl]
  rfl

/-- Settles O7: the word is placed where the step fetches it. -/
theorem stepRunsThePlacedWord : Obligations.StepRunsThePlacedWord := by
  intro nbits w i s h
  obtain ⟨f, hf, hd⟩ := decodeTableWord_eq_some nbits w i h
  have hplaced : s.withFetchWord nbits w = placeFetched s f := by
    simp only [State.withFetchWord, hf]
  rw [hplaced]
  rcases fetchedOfTable_eq_some nbits w f hf with ⟨hn, rfl⟩ | ⟨hn, rfl⟩
  · rw [if_pos hn, step_placeFetched_command s _ i hd]
  · rw [if_neg hn, step_placeFetched_sequencer s _ i hd]

/-! ### Acceptance of a command -/

/-- A command of a non-reserved row with a legal operand is what a ready state accepts (R72). -/
theorem exec_command_eq_next_iff (w : CmdWord) (i : Instr) (h : decodeCommand w = .ok i)
    (s : State) : (∃ t, exec i s = .next t) ↔ Ready s ∧ i.wellFormed = true := by
  rcases decodeCommand_cases w i h with ⟨b, rfl⟩ | ⟨f, rfl⟩ | ⟨d, th, rfl⟩ | ⟨f, rfl⟩
  · simp [exec_reserved, Instr.wellFormed]
  · simp [exec_select_eq_next, Instr.wellFormed, Instr.freqLegal, and_comm]
  · simp [exec_arm_eq_next, Instr.wellFormed]
  · simp [exec_configure_eq_next, Instr.wellFormed, Instr.freqLegal, and_comm]

/-- The words that encode a command of a non-reserved row with a legal operand. -/
theorem decodeCommand_wellFormed_iff (w : CmdWord) :
    (∃ i, decodeCommand w = .ok i ∧ i.wellFormed = true) ↔
      rowArm.selects w = true ∨
        ((rowSelect.selects w = true ∨ rowConfigure.selects w = true) ∧ freqField w ≠ 0) := by
  constructor
  · rintro ⟨i, hd, hwf⟩
    rcases decodeCommand_rows w with ⟨_, hw⟩ | ⟨hrow, hw⟩ | ⟨hrow, _⟩ | ⟨hrow, hw⟩ | ⟨_, e, hw⟩
    · obtain rfl := Except.ok.inj (hw.symm.trans hd)
      simp [Instr.wellFormed] at hwf
    · obtain rfl := Except.ok.inj (hw.symm.trans hd)
      exact .inr ⟨.inl hrow, by simpa [Instr.wellFormed, Instr.freqLegal] using hwf⟩
    · exact .inl hrow
    · obtain rfl := Except.ok.inj (hw.symm.trans hd)
      exact .inr ⟨.inr hrow, by simpa [Instr.wellFormed, Instr.freqLegal] using hwf⟩
    · cases hw.symm.trans hd
  · rintro (hrow | ⟨hrow | hrow, hf⟩)
    · exact ⟨_, decodeCommand_of_arm w hrow, rfl⟩
    · exact ⟨_, decodeCommand_of_select w hrow, by simpa [Instr.wellFormed, Instr.freqLegal]⟩
    · exact ⟨_, decodeCommand_of_configure w hrow, by simpa [Instr.wellFormed, Instr.freqLegal]⟩

/-- The foreground's turn with a word on the port answers a next state exactly if the state is ready
and the word encodes a well-formed command. -/
theorem step_command_eq_next_iff (s : State) (w : CmdWord) (hn : nextTurn s = .foreground)
    (hp : s.port = some w) :
    (∃ t, step s = .next t) ↔
      Ready s ∧ ∃ i, decodeCommand w = .ok i ∧ i.wellFormed = true := by
  have hfetch : decode (fetch s) = decodeCommand w := by simp only [fetch, hp, decode]
  constructor
  · rintro ⟨t, ht⟩
    rcases step_eq_next s t ht with
      ⟨_, i, hi, he⟩ | ⟨_, hx, _⟩ | ⟨hx, _⟩ | ⟨hx, _⟩ | ⟨hx, _⟩ | ⟨hx, _⟩ | ⟨hx, _⟩
    · have hd : decodeCommand w = .ok i := hfetch.symm.trans hi
      obtain ⟨hready, hwf⟩ := (exec_command_eq_next_iff w i hd _).1 ⟨t, he⟩
      exact ⟨hready, i, hd, hwf⟩
    all_goals cases hn.symm.trans hx
  · rintro ⟨hready, i, hd, hwf⟩
    rw [stepRunsTheDecodedInstruction s i hn (hfetch.trans hd)]
    exact (exec_command_eq_next_iff w i hd _).2 ⟨hready, hwf⟩

/-- Settles O8: the well-formed commands are the words of the three rows with a legal operand. -/
theorem commandAcceptedExactlyWhenReady : Obligations.CommandAcceptedExactlyWhenReady := by
  intro s w hn hp
  refine ⟨?_, outcome_next_or_refused (step s)⟩
  rw [step_command_eq_next_iff s w hn hp, decodeCommand_wellFormed_iff, rowArm_selects_iff,
    rowSelect_selects_iff, rowConfigure_selects_iff, freqField_eq]

end Sys2Proof.Machine
end

section
/-! The result port (spec 30_encoding.md R64): what it shows, and which steps leave it. -/

namespace Sys2Proof.Machine

theorem result_of_valid (s : State) (h : s.resValid = true) :
    s.result = some (resultWord s.divr s.thr) := if_pos h

theorem result_of_not_valid (s : State) (h : s.resValid = false) : s.result = none := by
  simp [State.result, h]

@[simp] theorem tickCounter_result (s : State) : (tickCounter s).result = s.result := by
  rw [tickCounter_eq]
  split_ifs <;> rfl

@[simp] theorem deliverInterrupt_result (s : State) : (deliverInterrupt s).result = s.result := by
  rcases deliverInterrupt_cases s with ⟨_, h⟩ | ⟨_, h⟩
  · rw [h]
  · rw [h]; rfl

/-- No agent but the foreground, and no presentation of a word, writes what the port shows. -/
theorem hardware_step_result (s t : State) (hn : nextTurn s ≠ .foreground)
    (hr : nextTurn s ≠ .reset) (h : step s = .next t) : t.result = s.result := by
  rcases step_eq_next s t h with
    ⟨hf, _⟩ | ⟨w, _, rfl⟩ | ⟨_, ht⟩ | ⟨_, ht⟩ | ⟨_, rfl⟩ | ⟨_, rfl⟩ | ⟨hx, _⟩
  · exact absurd hf hn
  · rfl
  · rcases (tickTurn_eq_next _ _).1 ht with ⟨_, rfl⟩ | ⟨_, _, rfl⟩
    · rfl
    · exact tickCounter_result _
  · rcases (cycleTurn_eq_next _ _).1 ht with ⟨_, rfl⟩ | ⟨_, _, _, rfl⟩ | ⟨_, _, _, rfl⟩
    · rfl
    · rfl
    · exact tickCounter_result _
  · exact deliverInterrupt_result _
  · rfl
  · exact absurd hx hr

/-- With no command on the port and no sequence in progress the foreground's turn is IDLE. -/
theorem foreground_step_of_idle (s t : State) (hn : nextTurn s = .foreground) (hp : s.port = none)
    (hq : s.seq = 0) (h : step s = .next t) : t = clearPort (dropTurn s) := by
  rcases foreground_step_cases s t hn h with ⟨⟨w, hw⟩, _⟩ | ⟨_, hm⟩
  · cases hp.symm.trans hw
  · simpa [hq] using hm

/-- Settles O22, from the writes of the three commands and from IDLE and the other agents, which
write neither the result nor its validity. -/
theorem resultPortShowsTheSelection : Obligations.ResultPortShowsTheSelection := by
  refine ⟨fun freq s t h => ?_, fun s t hcmd hr hq h => ?_, fun freq s t h => ?_,
    fun d th s t h => ?_⟩
  · obtain ⟨_, _, rfl⟩ := (exec_select_eq_next freq s t).1 h
    exact ⟨_, result_of_valid _ rfl, resultWord_divr _ _, resultWord_thr _ _⟩
  · by_cases hn : nextTurn s = .foreground
    · have hp : s.port = none := hcmd.resolve_right fun hne => hne hn
      rw [foreground_step_of_idle s t hn hp hq h]
      rfl
    · exact hardware_step_result s t hn hr h
  · obtain ⟨_, _, rfl⟩ := (exec_configure_eq_next freq s t).1 h
    exact result_of_not_valid _ rfl
  · obtain ⟨_, rfl⟩ := (exec_arm_eq_next d th s t).1 h
    exact result_of_not_valid _ rfl

end Sys2Proof.Machine
end

section
/-! The reserved and illegal encodings (spec 30_encoding.md section 6, R69): the words the port
refuses, the operands outside the tables, and the clock-select codes without a tick. -/

open Sys2Proof.Claims

namespace Sys2Proof.Machine

/-! ### The words that are refused -/

/-- A word keeps the bits of a match under every mask within the mask it was matched with. -/
theorem and_eq_of_and_eq {w mask pattern : CmdWord} (h : w &&& mask = pattern) (m : CmdWord)
    (hm : mask &&& m = m) : w &&& m = pattern &&& m := by
  rw [← h, BitVec.and_assoc, hm]

/-- The command words that R69 lists: `OP = 0b00`, a must-be-zero bit of format F or A that is not
zero, and format F with `FREQ = 0`. -/
def RefusedWord (w : CmdWord) : Prop :=
  w &&& 0xC000000000000000#64 = 0 ∨
  (w &&& 0x4000000000000000#64 ≠ 0 ∧ w &&& 0x3FFFFFFF00000000#64 ≠ 0) ∨
  (w &&& 0xC000000000000000#64 = 0x8000000000000000#64 ∧ w &&& 0x3F00000000000000#64 ≠ 0) ∨
  w = 0x4000000000000000#64 ∨ w = 0xC000000000000000#64

/-- No word of the row of ARM is in the list: its `OP` is `0b10` and its must-be-zero bits are 0. -/
theorem not_refusedWord_of_arm (w : CmdWord)
    (h : w &&& 0xFF00000000000000#64 = 0x8000000000000000#64) : ¬ RefusedWord w := by
  have hop := and_eq_of_and_eq h 0xC000000000000000#64 (by decide)
  have hlow := and_eq_of_and_eq h 0x4000000000000000#64 (by decide)
  have hzero := and_eq_of_and_eq h 0x3F00000000000000#64 (by decide)
  rintro (h0 | ⟨hF, _⟩ | ⟨_, hA⟩ | rfl | rfl)
  · exact absurd (h0.symm.trans hop) (by decide)
  · exact hF hlow
  · exact hA hzero
  · exact absurd h (by decide)
  · exact absurd h (by decide)

/-- No word of a row of format F with `FREQ` not 0 is in the list: bit 62 is in its `OP`, which is
not `0b00`, and its must-be-zero bits are 0. -/
theorem not_refusedWord_of_formatF (w pattern : CmdWord)
    (h : w &&& 0xFFFFFFFF00000000#64 = pattern)
    (hpat : pattern = 0x4000000000000000#64 ∨ pattern = 0xC000000000000000#64)
    (hfreq : w.setWidth 32 ≠ (0 : BitVec 32)) : ¬ RefusedWord w := by
  have hop := and_eq_of_and_eq h 0xC000000000000000#64 (by decide)
  have hzero := and_eq_of_and_eq h 0x3FFFFFFF00000000#64 (by decide)
  rintro (h0 | ⟨_, hF⟩ | ⟨h2, _⟩ | rfl | rfl)
  · rcases hpat with rfl | rfl <;> exact absurd (h0.symm.trans hop) (by decide)
  · rcases hpat with rfl | rfl <;> exact hF hzero
  · rcases hpat with rfl | rfl <;> exact absurd (h2.symm.trans hop) (by decide)
  · exact hfreq (by decide)
  · exact hfreq (by decide)

/-- A word of the list is accepted in no state (R69). -/
theorem step_refuses_refusedWord (s : State) (w : CmdWord) (hn : nextTurn s = .foreground)
    (hp : s.port = some w) (hw : RefusedWord w) : ∃ r, step s = .refused r := by
  obtain ⟨haccepted, houtcome⟩ := commandAcceptedExactlyWhenReady s w hn hp
  refine houtcome.resolve_left fun hnext => ?_
  rcases (haccepted.1 hnext).2 with harm | ⟨hrow | hrow, hfreq⟩
  · exact not_refusedWord_of_arm w harm hw
  · exact not_refusedWord_of_formatF w _ hrow (.inl rfl) hfreq hw
  · exact not_refusedWord_of_formatF w _ hrow (.inr rfl) hfreq hw

/-! ### The operands outside the tables -/

/-- ARM asks nothing of its operands. -/
theorem exec_arm_of_ready (d : BitVec 16) (th : BitVec 40) (s : State) (h : Ready s) :
    ∃ t, exec (.arm d th) s = .next t :=
  ⟨_, (exec_arm_eq_next d th s _).2 ⟨h, rfl⟩⟩

theorem csmap_eq_zero_of_not_mem (d : BitVec 16) (h : d.toNat ∉ divisors) : csmap d = 0 := by
  by_contra hne
  exact h (mem_divisors_of_csmap_ne_zero d hne)

/-- M5 sets no bit for a divisor without a code (R67, R69). -/
theorem exec_m5_of_unmapped (s : State) (hq : s.seq = 5) (h : csmap s.divr = 0) :
    ∃ t, exec .m5 s = .next t ∧ readCtrl t = readCtrl s := by
  refine ⟨_, (exec_m5_eq_next s _).2 ⟨hq, rfl⟩, ?_⟩
  simp [readCtrl, h, BitVec.and_assoc]

/-- M3 keeps the threshold mod `2^16`, whatever its sign and size (R93). -/
theorem exec_m3_readCmp (s : State) (hq : s.seq = 3) :
    ∃ t, exec .m3 s = .next t ∧ ((readCmp t).toNat : Int) = s.thr.toInt % 65536 := by
  refine ⟨_, (exec_m3_eq_next s _).2 ⟨hq, rfl⟩, ?_⟩
  have hnonneg : 0 ≤ s.thr.toInt % 65536 := Int.emod_nonneg _ (by decide)
  simp [readCmp, trunc16, thresholdOf, BitVec.toNat_ofInt, Int.toNat_of_nonneg hnonneg]

/-! ### The clock-select codes without a tick -/

theorem divOf_reserved (c : BitVec 3) (h : c = 6 ∨ c = 7) : c ≠ 0 ∧ divOf c = none := by
  rcases h with rfl | rfl <;> decide

/-- The spec has no tick rule for the reserved codes; the model stops (log 14). -/
theorem tickTurn_of_reserved (s : State) (h : s.cs = 6 ∨ s.cs = 7) :
    tickTurn s = .refused .reservedClockSelect := by
  obtain ⟨hne, hnone⟩ := divOf_reserved s.cs h
  rw [tickTurn, if_neg hne, hnone]

theorem cycleTurn_of_reserved (s : State) (h : s.cs = 6 ∨ s.cs = 7) :
    cycleTurn s = .refused .reservedClockSelect := by
  obtain ⟨hne, hnone⟩ := divOf_reserved s.cs h
  rw [cycleTurn, if_neg hne, hnone]

/-- Settles O41: taking the turn leaves the code, and neither kind of turn has a rule for it. -/
theorem reservedClockSelectIsRefused : Obligations.ReservedClockSelectIsRefused := by
  rintro s (hn | hn) hcs
  · exact ⟨_, (step_of_nextTurn hn).trans (tickTurn_of_reserved (dropTurn s) hcs)⟩
  · exact ⟨_, (step_of_nextTurn hn).trans (cycleTurn_of_reserved (dropTurn s) hcs)⟩

/-- A running counter ticks in the clear-on-compare mode alone (R113). -/
theorem tickTurn_of_ctc_clear (s : State) (hctc : s.ctc = false) (hcs : s.cs ≠ 0) :
    ∃ r, tickTurn s = .refused r := by
  refine (outcome_next_or_refused (tickTurn s)).resolve_left ?_
  rintro ⟨t, ht⟩
  rcases (tickTurn_eq_next s t).1 ht with ⟨h0, _⟩ | ⟨_, ⟨_, hset⟩, _⟩
  · exact hcs h0
  · exact absurd (hset.symm.trans hctc) (by decide)

/-- No state of the invariant has a reserved code, or a clock without the mode bit. -/
theorem Consistent.clock_select {s : State} (h : Consistent s) :
    s.cs ≠ 6 ∧ s.cs ≠ 7 ∧ (s.cs ≠ 0 → s.ctc = true) := by
  have hall : ∀ c ∈ [0x00#8, 0x08, 0x09, 0x0A, 0x0B, 0x0C, 0x0D],
      c.extractLsb' 0 3 ≠ 6#3 ∧ c.extractLsb' 0 3 ≠ 7#3 ∧
        (c.extractLsb' 0 3 ≠ 0#3 → c.getLsbD 3 = true) := by decide
  exact hall s.ctrl (List.mem_cons.2 h.ctrl_cases)

/-- Settles O10, row by row of the table of R69; a step never faults because there is no fault. -/
theorem reservedEncodingsBehave : Obligations.ReservedEncodingsBehave := by
  refine ⟨step_refuses_refusedWord, fun s d th hr hd => ⟨exec_arm_of_ready d th s hr, ?_⟩,
    fun s d th hr _ => ⟨exec_arm_of_ready d th s hr, ?_⟩, fun s hn hcs t ht => ?_,
    fun s hn hctc hcs => ?_, fun s hs => hs.clock_select, fun s f => nomatch f⟩
  · rintro u hq rfl
    exact exec_m5_of_unmapped u hq (csmap_eq_zero_of_not_mem _ hd)
  · rintro u hq rfl
    exact exec_m3_readCmp u hq
  · obtain ⟨r, hrefused⟩ := reservedClockSelectIsRefused s (.inl hn) hcs
    cases ht.symm.trans hrefused
  · rw [step_of_nextTurn hn]
    exact tickTurn_of_ctc_clear (dropTurn s) hctc hcs

end Sys2Proof.Machine
end

section
/-! The Selector (spec 40_selector.md R80 to R89): the threshold formula over the integers and over
the rationals, where the loop of R81 stops, and what SELECT stores. -/

namespace Sys2Proof.Claims

/-! ### The threshold formula -/

theorem pos_of_mem_divisors {d : Nat} (h : d ∈ divisors) : 0 < d := by
  revert d; decide

theorem le_1024_of_mem_divisors {d : Nat} (h : d ∈ divisors) : d ≤ 1024 := by
  revert d; decide

/-- The threshold never grows with the product of the frequency and the divisor. -/
theorem threshold_le_of_mul_le (f g : BitVec 32) (d e : Nat) (hpos : 0 < f.toNat * d)
    (hle : f.toNat * d ≤ g.toNat * e) : threshold g e ≤ threshold f d := by
  have hquot : 4096000000 / (g.toNat * e) ≤ 4096000000 / (f.toNat * d) :=
    Nat.div_le_div_left hle hpos
  unfold threshold
  exact_mod_cast Int.sub_le_sub_right (Int.ofNat_le.2 hquot) 1

/-- R86, in the frequency. -/
theorem threshold_anti_freq {f g : BitVec 32} (hf : f ≠ 0) (hfg : f.toNat ≤ g.toNat) {d : Nat}
    (hd : 0 < d) : threshold g d ≤ threshold f d :=
  threshold_le_of_mul_le f g d d (Nat.mul_pos (BitVec.toNat_pos_of_ne_zero hf) hd)
    (Nat.mul_le_mul_right d hfg)

/-- R86, in the divisor. -/
theorem threshold_anti_divisor {f : BitVec 32} (hf : f ≠ 0) {d e : Nat} (hd : 0 < d)
    (hde : d ≤ e) : threshold f e ≤ threshold f d :=
  threshold_le_of_mul_le f f d e (Nat.mul_pos (BitVec.toNat_pos_of_ne_zero hf) hd)
    (Nat.mul_le_mul_left _ hde)

/-- The largest divisor has the smallest threshold, which is out of range up to 61/256 Hz (R82). -/
theorem limit_le_threshold_1024_iff {freq : BitVec 32} (hf : freq ≠ 0) :
    65536 ≤ threshold freq 1024 ↔ freq.toNat ≤ 61 := by
  have hpos := BitVec.toNat_pos_of_ne_zero hf
  have hdiv : (65537 : Int) ≤ 4096000000 / ((freq.toNat : Int) * 1024) ↔
      65537 * ((freq.toNat : Int) * 1024) ≤ 4096000000 := Int.le_ediv_iff_mul_le (by omega)
  unfold threshold
  push_cast
  omega

theorem forall_limit_le_threshold_iff {freq : BitVec 32} (hf : freq ≠ 0) :
    (∀ d ∈ divisors, 65536 ≤ threshold freq d) ↔ freq.toNat ≤ 61 := by
  rw [← limit_le_threshold_1024_iff hf]
  refine ⟨fun h => h 1024 (by decide), fun h d hd => h.trans ?_⟩
  exact threshold_anti_divisor hf (pos_of_mem_divisors hd) (le_1024_of_mem_divisors hd)

/-! ### Where the loop stops -/

section
variable {freq : BitVec 32} {i d : Nat}

theorem StopsAt.mem (h : StopsAt freq i d) : d ∈ divisors := List.mem_of_getElem? h.1

theorem StopsAt.fits_or_last (h : StopsAt freq i d) : threshold freq d < 65536 ∨ d = 1024 := by
  obtain ⟨hget, -, hfits | rfl⟩ := h
  · exact .inl hfits
  · exact .inr (Option.some.inj hget).symm

/-- The divisors ascend (R23). -/
theorem divisors_mono {i j d e : Nat} (hij : i ≤ j) (hd : divisors[i]? = some d)
    (he : divisors[j]? = some e) : d ≤ e := by
  obtain ⟨hi, rfl⟩ := List.getElem?_eq_some_iff.1 hd
  obtain ⟨hj, rfl⟩ := List.getElem?_eq_some_iff.1 he
  have hsorted : divisors.Pairwise (· ≤ ·) := by decide
  exact hsorted.rel_get_of_le (a := ⟨i, hi⟩) (b := ⟨j, hj⟩) hij

/-- R85: a divisor that fits is not before the one at which the loop stops. -/
theorem StopsAt.le_of_fits (h : StopsAt freq i d) {e : Nat} (he : e ∈ divisors)
    (hfits : threshold freq e < 65536) : d ≤ e := by
  obtain ⟨hget, hbefore, -⟩ := h
  obtain ⟨j, hj⟩ := List.mem_iff_getElem?.1 he
  have hij : i ≤ j := not_lt.1 fun hlt => absurd (hbefore j e hlt hj) (not_le.2 hfits)
  exact divisors_mono hij hget hj

theorem StopsAt.fits (h : StopsAt freq i d) (hex : ∃ e ∈ divisors, threshold freq e < 65536) :
    threshold freq d < 65536 := by
  obtain ⟨e, he, hfits⟩ := hex
  rcases h.fits_or_last with hd | rfl
  · exact hd
  · have h1024 : e = 1024 := le_antisymm (le_1024_of_mem_divisors he) (h.le_of_fits he hfits)
    exact h1024 ▸ hfits

theorem StopsAt.eq_last (h : StopsAt freq i d) (hnone : ∀ e ∈ divisors, 65536 ≤ threshold freq e) :
    d = 1024 := h.fits_or_last.resolve_left (not_lt.2 (hnone d h.mem))

/-- R86, for the returned divisor: what fits at a frequency fits at every higher one. -/
theorem StopsAt.anti_freq {g : BitVec 32} {j e : Nat} (hf : freq ≠ 0) (h : StopsAt freq i d)
    (hg : StopsAt g j e) (hfg : freq.toNat ≤ g.toNat) : e ≤ d := by
  rcases h.fits_or_last with hfits | rfl
  · have hanti := threshold_anti_freq hf hfg (pos_of_mem_divisors h.mem)
    exact hg.le_of_fits h.mem (hanti.trans_lt hfits)
  · exact le_1024_of_mem_divisors hg.mem

end

end Sys2Proof.Claims

open Sys2Proof.Claims

namespace Sys2Proof.Machine

/-! ### The candidate threshold of the model -/

theorem candidate_eq_threshold (freq : BitVec 32) (d : BitVec 16) :
    candidate freq d = threshold freq d.toNat := by
  simp [candidate, threshold, Config.fRef, Config.fracScale]

theorem freqHz_pos {freq : BitVec 32} (h : freq ≠ 0) : 0 < freqHz freq := by
  have hpos : (0 : ℚ) < freq.toNat := by exact_mod_cast BitVec.toNat_pos_of_ne_zero h
  unfold freqHz Config.fracScale
  positivity

/-- The rational quotient of R80 is the integer one, with numerator and denominator times 256. -/
theorem refClock_div_eq (freq : BitVec 32) (d : Nat) :
    (16000000 : ℚ) / (freqHz freq * d) = ((4096000000 : Nat) : ℚ) / ((freq.toNat * d : Nat) : ℚ) := by
  have hscale : freqHz freq * d = ((freq.toNat * d : Nat) : ℚ) / 256 := by
    unfold freqHz Config.fracScale; push_cast; ring
  rw [hscale, div_div_eq_mul_div]
  norm_num

theorem threshold_eq_floor (freq : BitVec 32) (d : Nat) :
    threshold freq d = ⌊(16000000 : ℚ) / (freqHz freq * d)⌋ - 1 := by
  rw [refClock_div_eq, Rat.floor_natCast_div_natCast]
  simp [threshold]

theorem toNat_mul_divisor_lt (freq : BitVec 32) {d : Nat} (hd : d ∈ divisors) :
    freq.toNat * d < 2 ^ 42 := by
  have hfreq := freq.isLt
  have h1024 := le_1024_of_mem_divisors hd
  calc freq.toNat * d ≤ freq.toNat * 1024 := Nat.mul_le_mul_left _ h1024
    _ < 2 ^ 42 := by omega

theorem candidate_succ_lt (freq : BitVec 32) (d : BitVec 16) : candidate freq d + 1 < 2 ^ 32 := by
  have hquot : Config.fRef * Config.fracScale / (freq.toNat * d.toNat) ≤ 4096000000 :=
    Nat.div_le_self _ _
  unfold candidate
  omega

/-- Settles O15, from the rational formula and the widths. -/
theorem candidateThresholdIsExact : Obligations.CandidateThresholdIsExact := fun freq d _ hd =>
  ⟨(candidate_eq_threshold freq d).trans (threshold_eq_floor freq d.toNat),
    candidate_eq_threshold freq d, candidate_ge_neg_one freq d, rfl,
    toNat_mul_divisor_lt freq hd, candidate_succ_lt freq d, candidate_toInt freq d⟩

/-! ### The selection -/

/-- Positions and divisors of the model's `DIVS` are those of R5. -/
theorem divisors_getElem?_eq_some (k n : Nat) :
    divisors[k]? = some n ↔ ∃ e : BitVec 16, Config.divs[k]? = some e ∧ e.toNat = n := by
  have hmap : divisors = Config.divs.map BitVec.toNat := rfl
  rw [hmap, List.getElem?_map, Option.map_eq_some_iff]

/-- The selection is the position and divisor where the loop of R81 stops, with the threshold of the
stated formula. -/
theorem selection_spec (freq : BitVec 32) :
    StopsAt freq (selection freq).idx (selection freq).divisor.toNat ∧
      (selection freq).threshold = threshold freq (selection freq).divisor.toNat := by
  obtain ⟨k, e, hget, hsel, hbefore, hstop⟩ :=
    search_spec freq Config.laterDivs 0 Config.firstDiv
  have hselection : selection freq = ⟨k, e, candidate freq e⟩ := by
    rw [selection, hsel, Nat.zero_add]
  simp only [candidate_eq_threshold] at hbefore hstop
  rw [hselection]
  refine ⟨⟨(divisors_getElem?_eq_some k e.toNat).2 ⟨e, hget, rfl⟩, fun j n hj hn => ?_, hstop⟩,
    candidate_eq_threshold freq e⟩
  obtain ⟨x, hx, rfl⟩ := (divisors_getElem?_eq_some j n).1 hn
  exact hbefore j hj x hx

theorem selection_stopsAt (freq : BitVec 32) :
    StopsAt freq (selection freq).idx (selection freq).divisor.toNat := (selection_spec freq).1

theorem selection_threshold (freq : BitVec 32) :
    (selection freq).threshold = threshold freq (selection freq).divisor.toNat :=
  (selection_spec freq).2

/-- The threshold of a selection is not truncated by the 40 bits of `THR` (R80, R88). -/
theorem selection_threshold_toInt (freq : BitVec 32) :
    (BitVec.ofInt 40 (selection freq).threshold).toInt =
      threshold freq (selection freq).divisor.toNat := by
  rw [selection_threshold, ← candidate_eq_threshold, candidate_toInt]

/-! ### SELECT -/

theorem exec_select_of_ready (freq : BitVec 32) (s : State) (hf : freq ≠ 0) (h : Ready s) :
    exec (.select freq) s = .next { latchSelection freq s with resValid := true } :=
  (exec_select_eq_next freq s _).2 ⟨hf, h, rfl⟩

/-- What a completed SELECT leaves in `DIVR` and `THR`. -/
theorem exec_select_stores {freq : BitVec 32} {s t : State} (h : exec (.select freq) s = .next t) :
    StopsAt freq (selection freq).idx t.divr.toNat ∧
      t.thr.toInt = threshold freq t.divr.toNat := by
  obtain ⟨-, -, rfl⟩ := (exec_select_eq_next freq s t).1 h
  exact ⟨selection_stopsAt freq, selection_threshold_toInt freq⟩

/-- Settles O16, at the position and divisor of the selection. -/
theorem selectStoresWhereTheSearchStops : Obligations.SelectStoresWhereTheSearchStops := by
  intro freq s hf
  refine ⟨fun hr => ?_, fun hr => exec_select_of_not_ready freq s (.inr hr)⟩
  refine ⟨(selection freq).idx, (selection freq).divisor.toNat, selection_stopsAt freq, ?_, ?_⟩
  · rw [exec_select_of_ready freq s hf hr, latchSelection, selection_threshold, BitVec.ofNat_toNat,
      BitVec.setWidth_eq]
  · rw [← selection_threshold, selection_threshold_toInt, selection_threshold]

/-- Settles O17: with no divisor that fits the loop runs to its last position. -/
theorem selectExhaustionReturnsTheLast : Obligations.SelectExhaustionReturnsTheLast := by
  intro freq hf
  refine ⟨forall_limit_le_threshold_iff hf, fun hnone s hr => ?_⟩
  have hnext := exec_select_of_ready freq s hf hr
  obtain ⟨hstop, hthr⟩ := exec_select_stores hnext
  have hlast := hstop.eq_last hnone
  rw [hlast] at hthr
  exact ⟨_, hnext, BitVec.eq_of_toNat_eq hlast, hthr, hthr ▸ hnone 1024 (by decide)⟩

/-- Settles O18: the operand alone bars both commands. -/
theorem zeroFrequencyIsRefused : Obligations.ZeroFrequencyIsRefused := fun s =>
  ⟨exec_select_of_not_ready 0 s (.inl rfl), exec_configure_of_not_ready 0 s (.inl rfl)⟩

/-- Settles O19, from where the loop stops. -/
theorem selectReturnsSmallestFittingDivisor : Obligations.SelectReturnsSmallestFittingDivisor := by
  intro freq s t _ hex h
  obtain ⟨hstop, hthr⟩ := exec_select_stores h
  exact ⟨hstop.mem, hstop.fits hex, fun d hd hfits => hstop.le_of_fits hd hfits, hthr⟩

/-- Settles O20, from the monotony of the formula. -/
theorem selectIsMonotone : Obligations.SelectIsMonotone := by
  intro f g hf hfg
  have hg : g ≠ 0 := by
    rintro rfl
    exact absurd hfg (not_le.2 (BitVec.toNat_pos_of_ne_zero hf))
  simp only [candidate_eq_threshold]
  refine ⟨fun d hd => threshold_anti_freq hf hfg (pos_of_mem_divisors hd),
    fun d e hd _ hde => threshold_anti_divisor hf (pos_of_mem_divisors hd) hde,
    fun s u hs hu => ?_⟩
  exact ⟨_, _, exec_select_of_ready f s hf hs, exec_select_of_ready g u hg hu,
    (selection_stopsAt f).anti_freq hf (selection_stopsAt g) hfg⟩

/-- Settles O21: SELECT writes the selection of its operand and nothing that it or a register of the
register space reads. -/
theorem selectIsPure : Obligations.SelectIsPure := by
  intro freq s t h
  obtain ⟨hf, hr, rfl⟩ := (exec_select_eq_next freq s t).1 h
  refine ⟨exec_select_of_ready freq _ hf hr, fun r => ?_, fun u v hv => ?_⟩
  · cases r <;> rfl
  · obtain ⟨-, -, rfl⟩ := (exec_select_eq_next freq u v).1 hv
    exact ⟨rfl, rfl, rfl, rfl, rfl⟩

/-! ### The period of a selected pair -/

/-- R89: the counter's period is the floor of R80 in place of the exact quotient, times a divided
clock. -/
theorem period_bounds {freq : BitVec 32} (hf : freq ≠ 0) {d : Nat} (hd : 0 < d) :
    ((threshold freq d : ℚ) + 1) * d / 16000000 ≤ 1 / freqHz freq ∧
    1 / freqHz freq - (d : ℚ) / 16000000 < ((threshold freq d : ℚ) + 1) * d / 16000000 := by
  have hfreq := freqHz_pos hf
  have hclock : (0 : ℚ) < (d : ℚ) / 16000000 := by positivity
  have hexact : 1 / freqHz freq = 16000000 / (freqHz freq * d) * (d / 16000000) := by field_simp
  have hfloor : (threshold freq d : ℚ) + 1 = ⌊(16000000 : ℚ) / (freqHz freq * d)⌋ := by
    rw [threshold_eq_floor]; push_cast; ring
  rw [hfloor, hexact, mul_div_assoc]
  constructor
  · exact mul_le_mul_of_nonneg_right (Int.floor_le _) hclock.le
  · rw [← sub_one_mul]
    exact mul_lt_mul_of_pos_right (Int.sub_one_lt_floor _) hclock

/-- Settles O23: the bounds hold of every pair the formula gives. -/
theorem selectedPeriodIsWithinOneClock : Obligations.SelectedPeriodIsWithinOneClock := by
  intro freq s t hf h _ _
  obtain ⟨hstop, hthr⟩ := exec_select_stores h
  rw [hthr]
  exact period_bounds hf (pos_of_mem_divisors hstop.mem)

/-! ### The words the spec writes out -/

/-- Settles O4: the four legal words are encodings, and the other two select no row. -/
theorem wordsOfTheSpecDecode : Obligations.WordsOfTheSpecDecode :=
  ⟨decodeOfEncodeIsTheInstruction (.select 256000),
    decodeOfEncodeIsTheInstruction (.arm 256 31249),
    decodeOfEncodeIsTheInstruction (.configure 512),
    decodeOfEncodeIsTheInstruction (.reserved 512), by decide, by decide⟩

end Sys2Proof.Machine
end

section
/-! The commands ARM and CONFIGURE and the micro-steps M1 to M7 one by one (spec 41_programmer.md
R90 to R97, R99): the state each leaves, and where delivery and the counter clock stand in the
sequence. -/

open Sys2Proof.Claims

namespace Sys2Proof.Machine

/-! ### The two commands -/

/-- Settles O24: ARM asks for a ready state and for nothing else. -/
theorem armStartsTheSequence : Obligations.ArmStartsTheSequence := fun d th s =>
  ⟨fun hr => (exec_arm_eq_next d th s _).2 ⟨hr, rfl⟩, exec_arm_of_not_ready d th s⟩

/-- The writes of the selection, by the formula of R80 and the divisor where the loop stops. -/
theorem latchSelection_eq (freq : BitVec 32) (s : State) :
    latchSelection freq s = { s with
      freq := freq, idx := BitVec.ofNat 3 (selection freq).idx,
      divr := BitVec.ofNat 16 (selection freq).divisor.toNat,
      thr := BitVec.ofInt 40 (threshold freq (selection freq).divisor.toNat) } := by
  rw [latchSelection, selection_threshold, BitVec.ofNat_toNat, BitVec.setWidth_eq]

/-- Settles O25, at the position and divisor of the selection. -/
theorem configureSelectsThenStarts : Obligations.ConfigureSelectsThenStarts := by
  intro freq s hf
  refine ⟨fun hr => ?_, fun hr => exec_configure_of_not_ready freq s (.inr hr)⟩
  refine ⟨(selection freq).idx, (selection freq).divisor.toNat, selection_stopsAt freq, ?_⟩
  rw [(exec_configure_eq_next freq s _).2 ⟨hf, hr, rfl⟩, latchSelection_eq]

/-! ### Delivery and the counter clock in the sequence -/

theorem deliverable_of_gie_zero (s : State) (h : s.gie = 0) : s.deliverable = false := by
  by_contra hd
  obtain ⟨-, -, hgie, -⟩ := (deliverable_iff s).1 (by simpa using hd)
  exact absurd (h.symm.trans hgie) (by decide)

/-- Only an armed machine has `GIE = 1` (R20, R97). -/
theorem Consistent.not_deliverable_of_seq {s : State} (h : Consistent s) (hq : s.seq ≠ 0) :
    s.deliverable = false :=
  deliverable_of_gie_zero s (h.gie_before (h.armed_of_seq hq))

/-- Settles O27: M1 clears `GIE`, and `GIE` is 0 as long as a sequence runs. -/
theorem m1SuppressesDelivery : Obligations.M1SuppressesDelivery := by
  refine ⟨fun s => ⟨fun hq => ?_, fun hq t ht => hq ((exec_m1_eq_next s t).1 ht).1⟩,
    fun s hs hq => ⟨(phase_eq_configuring s).2 hq,
      hs.not_deliverable_of_seq (seq_ne_zero_of_le (by decide) hq)⟩⟩
  exact ⟨_, (exec_m1_eq_next s _).2 ⟨hq, rfl⟩, rfl, (phase_eq_configuring _).2 (by simp),
    deliverable_of_gie_zero _ rfl⟩

/-- Settles O28: the clock is stopped in the whole stage before M5. -/
theorem m2ZeroesControlAndCounter : Obligations.M2ZeroesControlAndCounter := by
  refine ⟨fun s => ⟨fun hq => (exec_m2_eq_next s _).2 ⟨hq, rfl⟩,
    fun hq t ht => hq ((exec_m2_eq_next s t).1 ht).1⟩, fun s hs hlow hhigh => ?_⟩
  have harmed : s.armed = false := hs.armed_of_seq (seq_ne_zero_of_le (by decide) hlow)
  exact (hs.beforeM5 harmed hhigh).cs_eq_zero

/-! ### M3: truncation -/

theorem toNat_trunc16 (t : Int) : ((trunc16 t).toNat : Int) = t % 65536 := by
  have hnonneg : 0 ≤ t % 65536 := Int.emod_nonneg _ (by decide)
  simp [trunc16, BitVec.toNat_ofInt, Int.toNat_of_nonneg hnonneg]

/-- Settles O29, with the truncated threshold in `CMP`. -/
theorem m3WritesTruncatedThreshold : Obligations.M3WritesTruncatedThreshold := by
  refine fun s => ⟨fun hq => ?_, fun hq t ht => hq ((exec_m3_eq_next s t).1 ht).1⟩
  refine ⟨_, (exec_m3_eq_next s _).2 ⟨hq, rfl⟩, toNat_trunc16 _, fun h0 hmax => ?_⟩
  exact (toNat_trunc16 _).trans (Int.emod_eq_of_lt h0 (Int.lt_add_one_of_le hmax))

/-! ### M4 and M5: the bits of `CTRL` -/

/-- `CS` after bits are ORed into `CTRL`: all three of its bits exist (R66). -/
theorem extract_cs_or (c v : BitVec 8) :
    ((c &&& ctrlUsed) ||| v).extractLsb' 0 3 = c.extractLsb' 0 3 ||| v.extractLsb' 0 3 := by
  have hmask : ctrlUsed.extractLsb' 0 3 = BitVec.allOnes 3 := by decide
  rw [BitVec.extractLsb'_or, BitVec.extractLsb'_and, hmask, BitVec.and_allOnes]

/-- `CTC` after bits are ORed into `CTRL`. -/
theorem ctc_bit_or (c v : BitVec 8) :
    ((c &&& ctrlUsed) ||| v).getLsbD 3 = (c.getLsbD 3 || v.getLsbD 3) := by
  have hmask : ctrlUsed.getLsbD 3 = true := by decide
  rw [BitVec.getLsbD_or, BitVec.getLsbD_and, hmask, Bool.and_true]

/-- A clock-select code stands in the bits of `CS` and leaves `CTC` clear (R95). -/
theorem code_bits (c : BitVec 3) :
    (c.setWidth 8).extractLsb' 0 3 = c ∧ (c.setWidth 8).getLsbD 3 = false := by
  revert c; decide

/-- Settles O30: the mode bit is `CTC`, and it is no bit of `CS`. -/
theorem m4SetsClearOnCompare : Obligations.M4SetsClearOnCompare := by
  refine fun s => ⟨fun hq => ?_, fun hq t ht => hq ((exec_m4_eq_next s t).1 ht).1⟩
  refine ⟨_, (exec_m4_eq_next s _).2 ⟨hq, rfl⟩, rfl,
    ctrl_or_used_of_reading s.ctrl ctcMask (by decide), ?_, ?_⟩
  · have hbit : ctcMask.getLsbD 3 = true := by decide
    exact (ctc_bit_or s.ctrl ctcMask).trans (by rw [hbit, Bool.or_true])
  · have hcs : ctcMask.extractLsb' 0 3 = 0#3 := by decide
    exact (extract_cs_or s.ctrl ctcMask).trans (by rw [hcs, BitVec.or_zero]; rfl)

/-- The model's table is the one of R67. -/
theorem csmap_eq_clockCode (d : BitVec 16) : csmap d = clockCode d := csmap_eq_ite d

/-- The write of M5 to `CTRL`, before the clock starts. -/
def selectClock (s : State) : State :=
  { s with ctrl := (s.ctrl &&& ctrlUsed) ||| (clockCode s.divr).setWidth 8 }

/-- The state M5 leaves: beside `CTRL` and `SEQ` only the phase and the count of draws are
written. -/
theorem exec_m5_of_seq (s : State) (hq : s.seq = 5) :
    exec .m5 s = .next { selectClock s with
      psc := (startClock (clockCode s.divr) (selectClock s)).psc
      draws := (startClock (clockCode s.divr) (selectClock s)).draws
      seq := 6 } := by
  have hnext := (exec_m5_eq_next s _).2 ⟨hq, rfl⟩
  rw [csmap_eq_clockCode] at hnext
  obtain ⟨p, n, hframe⟩ := startClock_frame (clockCode s.divr) (selectClock s)
  rw [hnext]
  change Host.Outcome.next { startClock (clockCode s.divr) (selectClock s) with seq := 6 } = _
  rw [hframe]

theorem startClock_of_no_code (s : State) : startClock 0 s = s := if_pos rfl

/-- Into a stopped `CS` M5 writes the code of the divisor, which `DIVOF` gives back. -/
theorem divOf_cs_selectClock (s : State) (hcode : clockCode s.divr ≠ 0) (hcs : s.cs = 0) :
    (selectClock s).cs = clockCode s.divr ∧ divOf (selectClock s).cs = some s.divr.toNat := by
  have hwritten : (selectClock s).cs = clockCode s.divr := by
    have hzero : s.ctrl.extractLsb' 0 3 = 0#3 := hcs
    refine (extract_cs_or s.ctrl _).trans ?_
    rw [(code_bits _).1, hzero, BitVec.zero_or]
  refine ⟨hwritten, ?_⟩
  rw [hwritten, ← csmap_eq_clockCode]
  exact divOf_csmap _ (csmap_eq_clockCode s.divr ▸ hcode)

theorem ctc_selectClock (s : State) : (selectClock s).ctc = s.ctc := by
  refine (ctc_bit_or s.ctrl _).trans ?_
  rw [(code_bits _).2, Bool.or_false]
  rfl

/-- Settles O31: without a code the clock does not start; with one, it starts below its divisor. -/
theorem m5SelectsTheClock : Obligations.M5SelectsTheClock := by
  refine fun s => ⟨fun hq => ?_, fun hq t ht => hq ((exec_m5_eq_next s t).1 ht).1⟩
  refine ⟨_, _, _, exec_m5_of_seq s hq, rfl, fun hcode => ?_, fun hcode hcs => ?_⟩
  · rw [hcode, startClock_of_no_code]
    exact ⟨rfl, rfl⟩
  · obtain ⟨hwritten, hdiv⟩ := divOf_cs_selectClock s hcode hcs
    exact ⟨startClock_psc_lt _ _ hwritten _ hdiv,
      fun hctc => ⟨hdiv, (ctc_selectClock s).trans hctc⟩⟩

/-! ### M6 and M7 -/

theorem and_mask_or_mask {w : Nat} (x m : BitVec w) : (x &&& m) ||| m = m := by
  ext i hi
  rw [BitVec.getElem_or, BitVec.getElem_and]
  cases m[i] <;> simp

/-- Settles O32: `CMIE` is the one bit of `IEN`, and M6 leaves `GIE`. -/
theorem m6EnablesTheInterrupt : Obligations.M6EnablesTheInterrupt := by
  refine fun s => ⟨fun hq => ?_, fun hq t ht => hq ((exec_m6_eq_next s t).1 ht).1⟩
  exact ⟨_, (exec_m6_eq_next s _).2 ⟨hq, rfl⟩, rfl,
    BitVec.and_self.trans (and_mask_or_mask s.ien cmieMask).symm,
    fun hgie => deliverable_of_gie_zero _ hgie⟩

/-- Settles O33: with `GIE` set nothing but a running callback holds a waiting match back. -/
theorem m7ResumesDelivery : Obligations.M7ResumesDelivery := by
  refine fun s => ⟨fun hq => ?_, fun hq t ht => hq ((exec_m7_eq_next s t).1 ht).1⟩
  exact ⟨_, _, _, _, _, _, (exec_m7_eq_next s _).2 ⟨hq, rfl⟩, rfl, (phase_eq_armed _).2 ⟨rfl, rfl⟩,
    fun hcmf hcmie hinsvc => (deliverable_iff _).2 ⟨hcmf, hcmie, rfl, hinsvc⟩⟩

end Sys2Proof.Machine
end

section
/-! The sequence as a whole (spec 41_programmer.md R98, R101 to R104): the foreground's walk through
M1 to M7, the end state of an accepted ARM, and the Armed state, with a clock and without one. -/

open Sys2Proof.Claims

namespace Sys2Proof.Machine

/-! ### One step of the sequence -/

/-- With no word on the port a foreground turn is the step whose code `SEQ` holds. -/
theorem step_of_empty_port (s : State) (hn : nextTurn s = .foreground) (hp : s.port = none) :
    step s = exec (decodeSeq s.seq) { dropTurn s with port := none } := by
  refine stepRunsTheDecodedInstruction s _ hn ?_
  simp only [fetch, hp, decode]

/-- Every micro-step completes where `SEQ` holds its code, and makes the next one the
foreground's. -/
theorem exec_decodeSeq_advances (s : State) (hq : s.seq ≠ 0) :
    ∃ t, exec (decodeSeq s.seq) s = .next t ∧ t.seq = s.seq + 1 := by
  rcases decodeSeq_cases s.seq with ⟨h0, _⟩ | ⟨hc, hi⟩ | ⟨hc, hi⟩ | ⟨hc, hi⟩ | ⟨hc, hi⟩ |
    ⟨hc, hi⟩ | ⟨hc, hi⟩ | ⟨hc, hi⟩
  · exact absurd h0 hq
  all_goals rw [hi, hc]
  · exact ⟨_, (exec_m1_eq_next s _).2 ⟨hc, rfl⟩, rfl⟩
  · exact ⟨_, (exec_m2_eq_next s _).2 ⟨hc, rfl⟩, rfl⟩
  · exact ⟨_, (exec_m3_eq_next s _).2 ⟨hc, rfl⟩, rfl⟩
  · exact ⟨_, (exec_m4_eq_next s _).2 ⟨hc, rfl⟩, rfl⟩
  · exact ⟨_, (exec_m5_eq_next s _).2 ⟨hc, rfl⟩, rfl⟩
  · exact ⟨_, (exec_m6_eq_next s _).2 ⟨hc, rfl⟩, rfl⟩
  · exact ⟨_, (exec_m7_eq_next s _).2 ⟨hc, rfl⟩, rfl⟩

/-- Settles O34: the micro-steps advance `SEQ`, no other agent writes it, and while it is not 0
neither `GIE` nor `INSVC` is set. -/
theorem sequenceAdvancesInOrder : Obligations.SequenceAdvancesInOrder := by
  refine ⟨fun s hn hp hq => ?_, fun s t hf hr h => (hardware_step_frame s t hf hr h).1,
    fun s t hs hq h => ?_⟩
  · obtain ⟨t, ht, hseq⟩ := exec_decodeSeq_advances { dropTurn s with port := none } hq
    exact ⟨decodeSeq s.seq, t, rfl, (step_of_empty_port s hn hp).trans ht, hseq, ht⟩
  · have hq0 : s.seq ≠ 0 := seq_ne_zero_of_le (by decide) hq
    have hd : s.deliverable = false := hs.not_deliverable_of_seq hq0
    refine ⟨hd, hs.insvc_of_armed (hs.armed_of_seq hq0), ?_⟩
    exact (step_invocations s t h).resolve_right fun ⟨_, hd', _⟩ =>
      absurd (hd.symm.trans hd') (by decide)

/-! ### From ARM to its end state -/

/-- A scheduled foreground turn with an empty port, in one piece: the micro-step takes the state
without the turn to `t`, and the run goes on from there. -/
theorem run_microstep (n : Nat) (s t : State) (ts : List Turn) (i : Instr)
    (hs : s.schedule = .foreground :: ts) (hp : s.port = none) (hi : decodeSeq s.seq = i)
    (h : exec i { s with schedule := ts, port := none } = .next t) :
    Host.Core.run Sys2Proof.core (n + 1) s = Host.Core.run Sys2Proof.core n t := by
  refine run_succ_of_next n s t ?_
  rw [step_of_empty_port s (nextTurn_cons s _ ts hs) hp, dropTurn_cons s _ ts hs, hi]
  exact h

/-- What the sequence started from `s` with divisor `d` and threshold `th` leaves (R102): the
registers it writes, and what it leaves of `s` beside the turns `rest` still to come. -/
structure SequenceEnd (s : State) (d : BitVec 16) (th : BitVec 40) (rest : List Turn) (t : State) :
    Prop where
  ctrl : t.ctrl = 0x08 ||| (clockCode d).setWidth 8
  cnt : t.cnt = 0
  cmp : t.cmp = trunc16 th.toInt
  ien : t.ien = 0x02
  gie : t.gie = 1
  armed : t.armed = true
  seq : t.seq = 0
  iflg : t.iflg = s.iflg
  insvc : t.insvc = s.insvc
  invocations : t.invocations = s.invocations
  schedule : t.schedule = rest

/-- "After M2, `CTRL = 0x00`, so after M4 `CTRL = 0x08`" (R94). -/
theorem exec_m4_of_ctrl_zero (s : State) (hq : s.seq = 4) (hc : s.ctrl = 0) :
    exec .m4 s = .next { s with ctrl := 0x08, seq := 5 } := by
  rw [(exec_m4_eq_next s _).2 ⟨hq, rfl⟩, hc]
  rfl

/-- To the mode bit alone M5 adds the code of the divisor (R95). -/
theorem exec_m5_of_ctrl_mode (s : State) (hq : s.seq = 5) (hc : s.ctrl = 0x08) :
    ∃ p n, exec .m5 s = .next { s with
      ctrl := 0x08 ||| (clockCode s.divr).setWidth 8, psc := p, draws := n, seq := 6 } := by
  obtain ⟨p, n, t, hm5, rfl, -⟩ := (m5SelectsTheClock s).1 hq
  have hmode : s.ctrl &&& 0x0F = 0x08 := by rw [hc]; decide
  rw [hmode] at hm5
  exact ⟨p, n, hm5⟩

/-- M1 to M4 stop delivery and the clock and set up the comparison (R91 to R94). -/
theorem run_m1_to_m4 (n : Nat) (s : State) (ts : List Turn) (hq : s.seq = 1) (hp : s.port = none)
    (hs : s.schedule = List.replicate 4 Turn.foreground ++ ts) :
    Host.Core.run Sys2Proof.core (n + 4) s = Host.Core.run Sys2Proof.core n { s with
      gie := 0, ctrl := 0x08, cnt := 0, cmp := trunc16 s.thr.toInt, seq := 5,
      schedule := ts, port := none } :=
  calc Host.Core.run Sys2Proof.core (n + 4) s
    _ = Host.Core.run Sys2Proof.core (n + 3) { s with
          gie := 0, seq := 2,
          schedule := List.replicate 3 Turn.foreground ++ ts, port := none } :=
        run_microstep _ _ _ _ .m1 hs hp (by rw [hq]; rfl) ((exec_m1_eq_next _ _).2 ⟨hq, rfl⟩)
    _ = Host.Core.run Sys2Proof.core (n + 2) { s with
          gie := 0, ctrl := 0, cnt := 0, seq := 3,
          schedule := List.replicate 2 Turn.foreground ++ ts, port := none } :=
        run_microstep _ _ _ _ .m2 rfl rfl rfl ((exec_m2_eq_next _ _).2 ⟨rfl, rfl⟩)
    _ = Host.Core.run Sys2Proof.core (n + 1) { s with
          gie := 0, ctrl := 0, cnt := 0, cmp := trunc16 s.thr.toInt, seq := 4,
          schedule := List.replicate 1 Turn.foreground ++ ts, port := none } :=
        run_microstep _ _ _ _ .m3 rfl rfl rfl ((exec_m3_eq_next _ _).2 ⟨rfl, rfl⟩)
    _ = _ := run_microstep _ _ _ _ .m4 rfl rfl rfl (exec_m4_of_ctrl_zero _ rfl rfl)

/-- M5 to M7 select the clock and let the interrupt through (R95 to R97). -/
theorem run_m5_to_m7 (s : State) (ts : List Turn) (hq : s.seq = 5) (hc : s.ctrl = 0x08)
    (hp : s.port = none) (hs : s.schedule = List.replicate 3 Turn.foreground ++ ts) :
    ∃ f d th i p n, Host.Core.run Sys2Proof.core 3 s = .next { s with
      ctrl := 0x08 ||| (clockCode s.divr).setWidth 8, ien := 0x02, gie := 1,
      armed := true, seq := 0, schedule := ts, port := none,
      freq := f, divr := d, thr := th, idx := i, psc := p, draws := n } := by
  obtain ⟨p, n, hm5⟩ := exec_m5_of_ctrl_mode { s with
    schedule := List.replicate 2 Turn.foreground ++ ts, port := none } hq hc
  refine ⟨Config.freeFreq n, Config.freeDivr n, Config.freeThr n, Config.freeIdx n, p, n + 1, ?_⟩
  calc Host.Core.run Sys2Proof.core 3 s
    _ = Host.Core.run Sys2Proof.core 2 { s with
          ctrl := 0x08 ||| (clockCode s.divr).setWidth 8, seq := 6,
          schedule := List.replicate 2 Turn.foreground ++ ts, port := none,
          psc := p, draws := n } :=
        run_microstep _ _ _ _ .m5 hs hp (by rw [hq]; rfl) hm5
    _ = Host.Core.run Sys2Proof.core 1 { s with
          ctrl := 0x08 ||| (clockCode s.divr).setWidth 8, ien := 0x02, seq := 7,
          schedule := List.replicate 1 Turn.foreground ++ ts, port := none,
          psc := p, draws := n } :=
        run_microstep _ _ _ _ .m6 rfl rfl rfl ((exec_m6_eq_next _ _).2 ⟨rfl, rfl⟩)
    _ = Host.Core.run Sys2Proof.core 0 _ :=
        run_microstep _ _ _ _ .m7 rfl rfl rfl ((exec_m7_eq_next _ _).2 ⟨rfl, rfl⟩)
    _ = _ := run_zero _

/-- Seven foreground turns with no word presented run M1 to M7. -/
theorem run_sequence (s : State) (rest : List Turn) (hq : s.seq = 1) (hp : s.port = none)
    (hs : s.schedule = List.replicate 7 Turn.foreground ++ rest) :
    ∃ t : State, Host.Core.run Sys2Proof.core 7 s = .next t ∧
      SequenceEnd s s.divr s.thr rest t := by
  rw [run_m1_to_m4 3 s (List.replicate 3 Turn.foreground ++ rest) hq hp hs]
  obtain ⟨f, d, th, i, p, n, hrun⟩ := run_m5_to_m7 { s with
    gie := 0, ctrl := 0x08, cnt := 0, cmp := trunc16 s.thr.toInt, seq := 5,
    schedule := List.replicate 3 Turn.foreground ++ rest, port := none } rest rfl rfl rfl rfl
  exact ⟨_, hrun, by constructor <;> rfl⟩

/-- A foreground turn accepts the ARM on the port of a ready state, and seven more run its
sequence. -/
theorem run_arm (s : State) (d : BitVec 16) (th : BitVec 40) (rest : List Turn) (hr : Ready s)
    (hp : s.port = some ((2 : BitVec 2) ++ (0 : BitVec 6) ++ d ++ th))
    (hs : s.schedule = List.replicate 8 Turn.foreground ++ rest) :
    ∃ t : State, Host.Core.run Sys2Proof.core 8 s = .next t ∧ SequenceEnd s d th rest t := by
  have hd : decode (fetch s) = .ok (.arm d th) := by
    simp only [fetch, hp]
    exact decodeOfEncodeIsTheInstruction (.arm d th)
  have harm := (stepRunsTheDecodedInstruction s _ (nextTurn_cons s _ _ hs) hd).trans
    ((armStartsTheSequence d th _).1 hr)
  rw [dropTurn_cons s _ _ hs] at harm
  rw [run_succ_of_next 7 s _ harm]
  obtain ⟨t, ht, hend⟩ := run_sequence { s with
    divr := d, thr := th, seq := 1, resValid := false,
    schedule := List.replicate 7 Turn.foreground ++ rest, port := none } rest rfl rfl rfl
  exact ⟨t, ht, { hend with }⟩

/-- Settles O35: the end state of the sequence, read through the register space. -/
theorem armReachesItsEndState : Obligations.ArmReachesItsEndState := by
  intro s d th rest hr hp hs
  obtain ⟨t, ht, hend⟩ := run_arm s d th rest hr hp hs
  obtain ⟨-, -, hinsvc⟩ := hr
  refine ⟨t, ht, ?_, hend.cnt, ?_, ?_, ?_, ?_, hend.armed, hend.seq, hend.insvc.trans hinsvc,
    (phase_eq_armed t).2 ⟨hend.seq, hend.armed⟩, hend.invocations, hend.schedule⟩
  · rw [readCtrl, hend.ctrl]
    generalize clockCode d = c
    revert c; decide
  · rw [readCmp, hend.cmp, toNat_trunc16]
  · rw [readIen, hend.ien]; rfl
  · rw [readIflg, hend.iflg]; rfl
  · rw [readGie, hend.gie]; rfl

/-- M3 keeps of a threshold its remainder mod `2^16` and no more (R93). -/
theorem trunc16_eq_of_dvd_sub {a b : Int} (h : (65536 : Int) ∣ a - b) : trunc16 a = trunc16 b := by
  have hmod : a % 65536 = b % 65536 := by omega
  apply BitVec.eq_of_toNat_eq
  exact_mod_cast (toNat_trunc16 a).trans (hmod.trans (toNat_trunc16 b).symm)

/-- Settles O36: the two end states differ in nothing but what `CMP` keeps of the thresholds. -/
theorem thresholdsEqualMod65536ArmAlike : Obligations.ThresholdsEqualMod65536ArmAlike := by
  intro s d th th' rest hr hs hdvd
  obtain ⟨t, ht, hend⟩ := run_arm { s with port := some _ } d th rest hr rfl hs
  obtain ⟨t', ht', hend'⟩ := run_arm { s with port := some _ } d th' rest hr rfl hs
  refine ⟨t, t', ht, ht', fun r => ?_⟩
  cases r with
  | ctrl => simp only [memRead, readCtrl, hend.ctrl, hend'.ctrl]
  | cnt => simp only [memRead, readCnt, hend.cnt, hend'.cnt]
  | cmp => simp only [memRead, readCmp, hend.cmp, hend'.cmp, trunc16_eq_of_dvd_sub hdvd]
  | ien => simp only [memRead, readIen, hend.ien, hend'.ien]
  | iflg => simp only [memRead, readIflg, hend.iflg, hend'.iflg]
  | gie => simp only [memRead, readGie, hend.gie, hend'.gie]

/-! ### Armed -/

/-- Settles O38: an armed machine is not ready, SELECT leaves a ready one ready. -/
theorem secondCallIsRefused : Obligations.SecondCallIsRefused := by
  refine ⟨fun s w ha hn hp => ?_, fun s t hp h hne => ?_, fun freq s t h => ?_⟩
  · obtain ⟨haccepted, houtcome⟩ := commandAcceptedExactlyWhenReady s w hn hp
    refine houtcome.resolve_left fun hnext => ?_
    obtain ⟨⟨-, ha', -⟩, -⟩ := haccepted.1 hnext
    exact absurd (ha.symm.trans ha') (by decide)
  · obtain ⟨-, -, hstay, -⟩ := lifeCycleLeavesArmedOnlyByReset
    by_contra hr
    exact hne (hstay s t h hp hr)
  · obtain ⟨-, hr, rfl⟩ := (exec_select_eq_next freq s t).1 h
    exact hr

/-- In the Armed state the foreground's turn is IDLE: a command is not accepted. -/
theorem foreground_step_of_phase_armed (s t : State) (hp : s.phase = .armed)
    (hn : nextTurn s = .foreground) (h : step s = .next t) : t = clearPort (dropTurn s) := by
  obtain ⟨hq, ha⟩ := (phase_eq_armed s).1 hp
  rcases foreground_step_cases s t hn h with ⟨_, ⟨_, ha', _⟩, _⟩ | ⟨_, hm⟩
  · exact absurd (ha.symm.trans ha') (by decide)
  · simpa [hq] using hm

/-- Armed with no clock selected and nothing pending (R103), with the counter and the number of
invocations at given values. -/
structure ArmedWithoutClock (cnt : BitVec 16) (n : Nat) (s : State) : Prop where
  phase : s.phase = .armed
  cs : s.cs = 0
  cmf : s.cmf = false
  cnt : s.cnt = cnt
  invocations : s.invocations = n

/-- Without a clock there is no tick, without a tick no flag, without the flag no delivery. -/
theorem ArmedWithoutClock.step {c : BitVec 16} {n : Nat} {s t : State}
    (hs : ArmedWithoutClock c n s) (hr : nextTurn s ≠ .reset) (h : step s = .next t) :
    ArmedWithoutClock c n t := by
  have hdrop : ArmedWithoutClock c n (dropTurn s) := { hs with }
  rcases step_eq_next s t h with
    ⟨hn, _⟩ | ⟨w, _, rfl⟩ | ⟨_, ht⟩ | ⟨_, ht⟩ | ⟨_, rfl⟩ | ⟨_, rfl⟩ | ⟨hn, _⟩
  · rw [foreground_step_of_phase_armed s t hs.phase hn h]
    exact { hs with }
  · exact { hs with }
  · rw [tickTurn_of_stopped _ hdrop.cs, Host.Outcome.next.injEq] at ht
    exact ht ▸ hdrop
  · rw [cycleTurn_of_stopped _ hdrop.cs, Host.Outcome.next.injEq] at ht
    exact ht ▸ hdrop
  · rcases deliverInterrupt_cases (dropTurn s) with ⟨_, hpass⟩ | ⟨hd, _⟩
    · exact hpass.symm ▸ hdrop
    · exact absurd (((deliverable_iff _).1 hd).1.symm.trans hdrop.cmf) (by decide)
  · exact { hs with }
  · exact absurd hn hr

theorem ArmedWithoutClock.run {c : BitVec 16} {m n : Nat} {s t : State}
    (hs : ArmedWithoutClock c m s)
    (hr : ∀ k < n, ∀ u, Host.Core.run Sys2Proof.core k s = .next u → nextTurn u ≠ .reset)
    (h : Host.Core.run Sys2Proof.core n s = .next t) : ArmedWithoutClock c m t := by
  induction n generalizing s with
  | zero => exact Host.Outcome.next.inj h ▸ hs
  | succ n ih =>
    obtain ⟨u, hu, hrun⟩ := run_succ_eq_next n s t h
    refine ih (hs.step (hr 0 n.succ_pos s (run_zero s)) hu) (fun k hk v hv => ?_) hrun
    exact hr (k + 1) (Nat.succ_lt_succ hk) v ((run_succ_of_next k s u hu).trans hv)

/-- Settles O37, by induction on the number of steps: each keeps the Armed state without a clock. -/
theorem unmappedDivisorNeverInterrupts : Obligations.UnmappedDivisorNeverInterrupts := by
  intro n s t hp hcs hcmf hr h
  have hs : ArmedWithoutClock s.cnt s.invocations s := ⟨hp, hcs, hcmf, rfl, rfl⟩
  obtain ⟨phase, cs, cmf, cnt, invocations⟩ := hs.run hr h
  exact ⟨cnt, cmf, invocations, cs, phase⟩

end Sys2Proof.Machine
end

section
/-! The running timer (spec 42_timer_counter.md R110 to R118): what a tick does and when there is none,
how many reference cycles make a tick and how many ticks make a match, and what the armed timer
keeps. -/

namespace Sys2Proof.Machine

/-! ### The tick -/

theorem tickCounter_of_match (s : State) (h : s.cnt = s.cmp) :
    tickCounter s = { s with cnt := 0, iflg := 0x02 } := (tickCounter_eq s).trans (if_pos h)

theorem tickCounter_of_no_match (s : State) (h : s.cnt ≠ s.cmp) :
    tickCounter s = { s with cnt := s.cnt + 1 } := (tickCounter_eq s).trans (if_neg h)

theorem step_tick_of_runsAt (s : State) (d : Nat) (hn : nextTurn s = .tick) (h : RunsAt s d) :
    step s = .next (tickCounter (dropTurn s)) :=
  (step_of_nextTurn hn).trans (tickTurn_of_runsAt (dropTurn s) d h)

/-- Settles O39: a tick turn answers a next state only with a running clock, where it is the tick, or
with a stopped one. -/
theorem tickCountsOrMatches : Obligations.TickCountsOrMatches := by
  refine fun s hn => ⟨fun d hrun => ⟨fun hmatch => ?_, fun hcount => ?_⟩, fun hnone t ht => ?_⟩
  · rw [step_tick_of_runsAt s d hn hrun, tickCounter_of_match (dropTurn s) hmatch]
  · rw [step_tick_of_runsAt s d hn hrun, tickCounter_of_no_match (dropTurn s) hcount,
      dropTurn_cnt]
  · rw [step_of_nextTurn hn] at ht
    rcases (tickTurn_eq_next (dropTurn s) t).1 ht with ⟨_, hsame⟩ | ⟨d, hrun, _⟩
    · exact hsame
    · exact absurd hrun (hnone d)

/-- Settles O40: taking the turn leaves the clock select, and neither kind of turn does more. -/
theorem stoppedCounterKeepsItsValue : Obligations.StoppedCounterKeepsItsValue := by
  rintro s hcs (hn | hn)
  · exact (step_of_nextTurn hn).trans (tickTurn_of_stopped (dropTurn s) hcs)
  · exact (step_of_nextTurn hn).trans (cycleTurn_of_stopped (dropTurn s) hcs)

/-- Settles O42: the tick is refused without the mode bit, which every state of the invariant with a
selected clock has. -/
theorem tickWithoutClearOnCompareIsRefused : Obligations.TickWithoutClearOnCompareIsRefused := by
  refine ⟨fun s hn hcs hctc => ?_, fun s hs => ?_⟩
  · rw [step_of_nextTurn hn]
    exact tickTurn_of_ctc_clear (dropTurn s) hctc hcs
  · obtain ⟨-, -, hmode⟩ := hs.clock_select
    exact hmode

/-! ### Many turns of one kind -/

/-- The step of a state with a turn scheduled first is that turn. -/
theorem step_scheduled (s : State) (x : Turn) (ts : List Turn) :
    step { s with schedule := x :: ts } = runTurn x { s with schedule := ts } :=
  everyInterleavingIsARun.1 s x ts

/-- A run that goes on for one more step. -/
theorem run_succ_of_run (n : Nat) (s u t : State) (h : Host.Core.run Sys2Proof.core n s = .next u)
    (hlast : step u = .next t) : Host.Core.run Sys2Proof.core (n + 1) s = .next t := by
  rw [run_add n 1 s u h, run_succ_of_next 0 u t hlast, run_zero]

theorem replicate_succ_append (n : Nat) (x : Turn) (rest : List Turn) :
    List.replicate (n + 1) x ++ rest = List.replicate n x ++ x :: rest := by
  rw [List.replicate_succ', List.append_assoc, List.singleton_append]

/-- When each of `n` turns `x` leads from `g k` to `g (k + 1)`, whatever is scheduled after it, they
lead from `g 0` to `g n`. -/
theorem run_replicate (x : Turn) (g : Nat → List Turn → State) (n : Nat) (rest : List Turn)
    (hstep : ∀ k < n, ∀ ts, step (g k (x :: ts)) = .next (g (k + 1) ts)) :
    Host.Core.run Sys2Proof.core n (g 0 (List.replicate n x ++ rest)) = .next (g n rest) := by
  induction n generalizing rest with
  | zero => rfl
  | succ n ih =>
    have hfirst := ih (x :: rest) fun k hk => hstep k (Nat.lt_succ_of_lt hk)
    rw [replicate_succ_append]
    exact run_succ_of_run n _ _ _ hfirst (hstep n n.lt_succ_self rest)

/-- The same with one more turn `x`, which may lead elsewhere. -/
theorem run_replicate_succ (x : Turn) (g : Nat → List Turn → State) (n : Nat) (rest : List Turn)
    (t : State) (hstep : ∀ k < n, ∀ ts, step (g k (x :: ts)) = .next (g (k + 1) ts))
    (hlast : step (g n (x :: rest)) = .next t) :
    Host.Core.run Sys2Proof.core (n + 1) (g 0 (List.replicate (n + 1) x ++ rest)) = .next t := by
  rw [replicate_succ_append]
  exact run_succ_of_run n _ _ t (run_replicate x g n (x :: rest) hstep) hlast

theorem toNat_add_ofNat {w : Nat} (x : BitVec w) (k : Nat) (h : x.toNat + k < 2 ^ w) :
    (x + BitVec.ofNat w k).toNat = x.toNat + k := by
  rw [BitVec.toNat_add, BitVec.toNat_ofNat, Nat.add_mod_mod, Nat.mod_eq_of_lt h]

theorem add_ofNat_succ {w : Nat} (x : BitVec w) (k : Nat) :
    x + BitVec.ofNat w k + 1 = x + BitVec.ofNat w (k + 1) := by
  rw [BitVec.add_assoc, BitVec.ofNat_add, BitVec.ofNat_eq_ofNat]

/-! ### Reference cycles up to a tick -/

/-- The state `k` reference cycles after `s`, none of which completes a tick, with the turns `ts`
to come. -/
def afterCycles (s : State) (k : Nat) (ts : List Turn) : State :=
  { s with psc := s.psc + BitVec.ofNat 10 k, schedule := ts }

theorem afterCycles_zero (s : State) : afterCycles s 0 s.schedule = s := by
  simp [afterCycles]

theorem RunsAt.afterCycles_psc {s : State} {d : Nat} (h : RunsAt s d) (k : Nat) (ts : List Turn)
    (hk : s.psc.toNat + k < d) : (afterCycles s k ts).psc.toNat = s.psc.toNat + k :=
  toNat_add_ofNat s.psc k (hk.trans_le (divOf_pos _ d h.1).2)

/-- A cycle short of the divisor advances the phase. -/
theorem RunsAt.step_afterCycles {s : State} {d : Nat} (h : RunsAt s d) (k : Nat) (ts : List Turn)
    (hk : s.psc.toNat + k + 1 < d) :
    step (afterCycles s k (.cycle :: ts)) = .next (afterCycles s (k + 1) ts) := by
  have hpsc := h.afterCycles_psc k ts (Nat.lt_of_succ_lt hk)
  calc step (afterCycles s k (.cycle :: ts))
      = cycleTurn (afterCycles s k ts) := step_scheduled (afterCycles s k ts) .cycle ts
    _ = .next { afterCycles s k ts with psc := (afterCycles s k ts).psc + 1 } :=
        cycleTurn_advances _ d h.1 (by omega)
    _ = .next (afterCycles s (k + 1) ts) := by simp only [afterCycles, add_ofNat_succ]

/-- The cycle that reaches the divisor clears the phase and makes one tick. -/
theorem RunsAt.step_afterCycles_ticks {s : State} {d : Nat} (h : RunsAt s d) (k : Nat)
    (ts : List Turn) (hk : s.psc.toNat + k + 1 = d) :
    step (afterCycles s k (.cycle :: ts)) =
      .next (tickCounter { s with psc := 0, schedule := ts }) := by
  have hpsc := h.afterCycles_psc k ts (by omega)
  calc step (afterCycles s k (.cycle :: ts))
      = cycleTurn (afterCycles s k ts) := step_scheduled (afterCycles s k ts) .cycle ts
    _ = .next (tickCounter { afterCycles s k ts with psc := 0 }) :=
        cycleTurn_ticks _ d h (by omega)

/-- Settles O43: each cycle short of the divisor advances the phase, the one that reaches it ticks. -/
theorem tickComesEveryDivisorCycles : Obligations.TickComesEveryDivisorCycles := by
  intro s d n rest hrun hphase hs
  have hstart : afterCycles s 0 (List.replicate n .cycle ++ rest) = s := hs ▸ afterCycles_zero s
  refine ⟨fun hshort => ?_, fun htick => ?_⟩
  · have hrunN := run_replicate .cycle (afterCycles s) n rest fun k hk ts =>
      hrun.step_afterCycles k ts (by omega)
    rwa [hstart] at hrunN
  · obtain ⟨m, rfl⟩ : ∃ m, n = m + 1 := Nat.exists_eq_add_one.2 (by omega)
    have hrunN := run_replicate_succ .cycle (afterCycles s) m rest _
      (fun k hk ts => hrun.step_afterCycles k ts (by omega))
      (hrun.step_afterCycles_ticks m rest htick)
    rwa [hstart, tickCounter_eq] at hrunN

/-! ### Ticks up to a match -/

/-- The state `k` ticks after `s`, none of which matches, with the turns `ts` to come. -/
def afterTicks (s : State) (k : Nat) (ts : List Turn) : State :=
  { s with cnt := s.cnt + BitVec.ofNat 16 k, schedule := ts }

theorem afterTicks_zero (s : State) : afterTicks s 0 s.schedule = s := by
  simp [afterTicks]

/-- Up to `CMP` the counter does not wrap. -/
theorem afterTicks_cnt (s : State) (k : Nat) (ts : List Turn)
    (hk : s.cnt.toNat + k ≤ s.cmp.toNat) : (afterTicks s k ts).cnt.toNat = s.cnt.toNat + k :=
  toNat_add_ofNat s.cnt k (hk.trans_lt s.cmp.isLt)

theorem RunsAt.step_tick_afterTicks {s : State} {d : Nat} (h : RunsAt s d) (k : Nat)
    (ts : List Turn) :
    step (afterTicks s k (.tick :: ts)) = .next (tickCounter (afterTicks s k ts)) :=
  (step_scheduled (afterTicks s k ts) .tick ts).trans (tickTurn_of_runsAt _ d h)

/-- A tick below `CMP` counts. -/
theorem RunsAt.step_afterTicks {s : State} {d : Nat} (h : RunsAt s d) (k : Nat) (ts : List Turn)
    (hk : s.cnt.toNat + k < s.cmp.toNat) :
    step (afterTicks s k (.tick :: ts)) = .next (afterTicks s (k + 1) ts) := by
  have hne : (afterTicks s k ts).cnt ≠ (afterTicks s k ts).cmp := fun heq =>
    hk.ne ((afterTicks_cnt s k ts hk.le).symm.trans (congrArg BitVec.toNat heq))
  rw [h.step_tick_afterTicks, tickCounter_of_no_match _ hne]
  simp only [afterTicks, add_ofNat_succ]

/-- The tick at `CMP` matches. -/
theorem RunsAt.step_afterTicks_matches {s : State} {d : Nat} (h : RunsAt s d) (k : Nat)
    (ts : List Turn) (hk : s.cnt.toNat + k = s.cmp.toNat) :
    step (afterTicks s k (.tick :: ts)) =
      .next { s with cnt := 0, iflg := 0x02, schedule := ts } := by
  have heq : (afterTicks s k ts).cnt = (afterTicks s k ts).cmp :=
    BitVec.eq_of_toNat_eq ((afterTicks_cnt s k ts hk.le).trans hk)
  rw [h.step_tick_afterTicks, tickCounter_of_match _ heq]
  rfl

/-- Settles O44: each tick below `CMP` counts, the one at `CMP` matches. -/
theorem matchComesEveryPeriod : Obligations.MatchComesEveryPeriod := by
  intro s d n rest hrun hle hs
  have hstart : afterTicks s 0 (List.replicate n .tick ++ rest) = s := hs ▸ afterTicks_zero s
  refine ⟨fun hbelow => ?_, fun hmatch => ?_⟩
  · have hrunN := run_replicate .tick (afterTicks s) n rest fun k hk ts =>
      hrun.step_afterTicks k ts (by omega)
    rwa [hstart] at hrunN
  · obtain ⟨m, rfl⟩ : ∃ m, n = m + 1 := Nat.exists_eq_add_one.2 (by omega)
    have hrunN := run_replicate_succ .tick (afterTicks s) m rest _
      (fun k hk ts => hrun.step_afterTicks k ts (by omega))
      (hrun.step_afterTicks_matches m rest (Nat.succ_inj.1 hmatch))
    rwa [hstart] at hrunN

/-! ### The armed timer -/

/-- Settles O45: once armed the foreground's turn is IDLE, and the other agents write none of these
registers. -/
theorem armedTimerNeverStops : Obligations.ArmedTimerNeverStops := by
  intro s t hp hr h
  have hphase : t.phase = .armed := by
    obtain ⟨-, -, hstay, -⟩ := lifeCycleLeavesArmedOnlyByReset
    exact hstay s t h hp hr
  by_cases hf : nextTurn s = .foreground
  · rw [foreground_step_of_phase_armed s t hp hf h] at hphase ⊢
    exact ⟨rfl, rfl, rfl, rfl, hphase⟩
  · obtain ⟨-, hctrl, hcmp, hien, hgie, -⟩ := hardware_step_frame s t hf hr h
    exact ⟨hctrl, hcmp, hien, hgie, hphase⟩

end Sys2Proof.Machine
end

section
/-! The interrupt (spec 60_exceptions.md R126 to R132): the turns of the interrupt agent, enabled or
not, a match while the callback runs or the flag waits, and the order of a tick and M7. -/

namespace Sys2Proof.Machine

/-! ### The flag, DELIVER and RETURN -/

theorem cmf_of_iflg_zero (s : State) (h : s.iflg = 0) : s.cmf = false := by
  rw [State.cmf, h]; decide

theorem cmf_of_iflg_set (s : State) (h : s.iflg = 0x02) : s.cmf = true := by
  rw [State.cmf, h]; decide

/-- Delivery is not enabled exactly when one of its four conditions fails (R126). -/
theorem deliverable_eq_false_iff (s : State) :
    s.deliverable = false ↔ s.cmf = false ∨ s.cmie = false ∨ s.gie = 0 ∨ s.insvc = true := by
  have hgie : ∀ g : BitVec 1, g ≠ 1 ↔ g = 0 := by decide
  rw [← Bool.not_eq_true, deliverable_iff]
  simp only [not_and_or, Bool.not_eq_true, Bool.not_eq_false, ← ne_eq, hgie]

theorem deliverInterrupt_of_deliverable (s : State) (h : s.deliverable = true) :
    deliverInterrupt s = { s with iflg := 0, insvc := true, invocations := s.invocations + 1 } :=
  ((deliverInterrupt_cases s).resolve_left fun ⟨hnot, _⟩ =>
    absurd (h.symm.trans hnot) (by decide)).2

theorem deliverInterrupt_of_not_deliverable (s : State) (h : s.deliverable = false) :
    deliverInterrupt s = s :=
  ((deliverInterrupt_cases s).resolve_right fun ⟨htaken, _⟩ =>
    absurd (h.symm.trans htaken) (by decide)).2

theorem step_deliver_of_not_deliverable (s : State) (hn : nextTurn s = .deliver)
    (h : s.deliverable = false) : step s = .next (dropTurn s) := by
  rw [step_of_nextTurn hn, runTurn, deliverInterrupt_of_not_deliverable (dropTurn s) h]

theorem returnFromInterrupt_of_not_insvc (s : State) (h : s.insvc = false) :
    returnFromInterrupt s = s := by
  rw [returnFromInterrupt, ← h]

/-- Settles O46: the turn delivers or passes, and a running sequence keeps `GIE` at 0. -/
theorem deliverTakesTheInterrupt : Obligations.DeliverTakesTheInterrupt := by
  refine ⟨fun s hn => ⟨fun hcmf hcmie hgie hinsvc => ?_, fun hfails t ht => ?_⟩,
    fun s hs hq => ⟨fun _ => ?_, ?_⟩⟩
  · exact step_deliver_of_deliverable s hn ((deliverable_iff s).2 ⟨hcmf, hcmie, hgie, hinsvc⟩)
  · rw [step_deliver_of_not_deliverable s hn ((deliverable_eq_false_iff s).2 hfails)] at ht
    exact (Host.Outcome.next.inj ht).symm
  · exact hs.gie_before (hs.armed_of_seq (seq_ne_zero_of_le (by decide) hq))
  · exact hs.not_deliverable_of_seq (seq_ne_zero_of_le (by decide) hq)

/-- Settles O47: of the four conditions of delivery RETURN writes `INSVC` alone. -/
theorem returnEndsTheCallback : Obligations.ReturnEndsTheCallback := fun _ hn _ =>
  ⟨_, step_of_nextTurn hn, rfl, fun hcmf hcmie hgie =>
    (deliverable_iff _).2 ⟨hcmf, hcmie, hgie, rfl⟩⟩

/-- Settles O48: neither operation writes anything where its step is not enabled. -/
theorem turnsNotEnabledPass : Obligations.TurnsNotEnabledPass := by
  refine fun s => ⟨step_deliver_of_not_deliverable s, fun hn hinsvc => ?_⟩
  rw [step_of_nextTurn hn, runTurn, returnFromInterrupt_of_not_insvc (dropTurn s) hinsvc]

/-! ### Ticks while the callback runs -/

/-- What a tick writes to the counter and the flag depends on `CNT`, `CMP` and `IFLG` alone, and
never clears the flag. -/
theorem tickCounter_writes (s : State) :
    ∃ (c : BitVec 16) (f : BitVec 8), (s.cmf = true → f.getLsbD 1 = true) ∧
      ∀ u : State, u.cnt = s.cnt → u.cmp = s.cmp → u.iflg = s.iflg →
        tickCounter u = { u with cnt := c, iflg := f } := by
  by_cases hmatch : s.cnt = s.cmp
  · refine ⟨0, 0x02, fun _ => by decide, fun u hcnt hcmp _ => ?_⟩
    exact tickCounter_of_match u (by rw [hcnt, hcmp, hmatch])
  · refine ⟨s.cnt + 1, s.iflg, id, fun u hcnt hcmp hiflg => ?_⟩
    rw [tickCounter_of_no_match u (by rwa [hcnt, hcmp]), ← hcnt, ← hiflg]

/-- A turn of the tick agent writes at most the phase, the counter and the flag, and never clears
the flag. -/
theorem counter_step_writes (s t : State) (hn : nextTurn s = .tick ∨ nextTurn s = .cycle)
    (h : step s = .next t) :
    ∃ (p : BitVec 10) (c : BitVec 16) (f : BitVec 8), (s.cmf = true → f.getLsbD 1 = true) ∧
      t = { dropTurn s with psc := p, cnt := c, iflg := f } := by
  obtain ⟨c, f, hkeep, htick⟩ := tickCounter_writes s
  rcases hn with hn | hn <;> rw [step_of_nextTurn hn] at h
  · rcases (tickTurn_eq_next _ t).1 h with ⟨_, rfl⟩ | ⟨_, _, rfl⟩
    · exact ⟨s.psc, s.cnt, s.iflg, id, rfl⟩
    · exact ⟨s.psc, c, f, hkeep, htick _ rfl rfl rfl⟩
  · rcases (cycleTurn_eq_next _ t).1 h with ⟨_, rfl⟩ | ⟨_, _, _, rfl⟩ | ⟨_, _, _, rfl⟩
    · exact ⟨s.psc, s.cnt, s.iflg, id, rfl⟩
    · exact ⟨s.psc + 1, s.cnt, s.iflg, id, rfl⟩
    · exact ⟨0, c, f, hkeep, htick _ rfl rfl rfl⟩

theorem tickTurn_of_match (s : State) (d : Nat) (hrun : RunsAt s d) (hmatch : s.cnt = s.cmp) :
    tickTurn s = .next { s with cnt := 0, iflg := 0x02 } :=
  (tickTurn_of_runsAt s d hrun).trans (congrArg Host.Outcome.next (tickCounter_of_match s hmatch))

/-- The reference cycle that completes a tick, at a match. -/
theorem cycleTurn_of_match (s : State) (d : Nat) (hrun : RunsAt s d) (hp : s.psc.toNat + 1 = d)
    (hmatch : s.cnt = s.cmp) : cycleTurn s = .next { s with psc := 0, cnt := 0, iflg := 0x02 } := by
  rw [cycleTurn_ticks s d hrun hp, tickCounter_of_match { s with psc := 0 } hmatch]

/-- Settles O49: `INSVC = 0` is a condition of delivery, delivery alone invokes the callback, and a
turn of the tick agent writes neither `INSVC` nor the record. -/
theorem callbackIsNotReentered : Obligations.CallbackIsNotReentered := by
  refine ⟨fun s hinsvc => (deliverable_eq_false_iff s).2 (.inr (.inr (.inr hinsvc))),
    fun s t h hne => ?_, fun s d _ hrun hmatch => ⟨fun hn => ?_, fun hn hp => ?_⟩,
    fun s t hinsvc hn h => ?_⟩
  · obtain ⟨-, hd, rfl⟩ := (step_invocations s t h).resolve_left hne
    obtain ⟨-, -, -, hinsvc⟩ := (deliverable_iff s).1 hd
    exact ⟨hinsvc, rfl, rfl⟩
  · exact ⟨_, (step_of_nextTurn hn).trans (tickTurn_of_match (dropTurn s) d hrun hmatch), rfl,
      cmf_of_iflg_set _ rfl⟩
  · exact ⟨_, (step_of_nextTurn hn).trans (cycleTurn_of_match (dropTurn s) d hrun hp hmatch), rfl,
      cmf_of_iflg_set _ rfl⟩
  · obtain ⟨p, c, f, hkeep, rfl⟩ := counter_step_writes s t hn h
    exact ⟨rfl, hinsvc, hkeep⟩

/-! ### A match while the flag waits -/

/-- A run begins with the turn scheduled first. -/
theorem run_scheduled (n : Nat) (s t : State) (x : Turn) (ts : List Turn)
    (hs : s.schedule = x :: ts) (h : runTurn x { s with schedule := ts } = .next t) :
    Host.Core.run Sys2Proof.core (n + 1) s = Host.Core.run Sys2Proof.core n t := by
  refine run_succ_of_next n s t ?_
  rw [step_of_nextTurn (nextTurn_cons s x ts hs), dropTurn_cons s x ts hs]
  exact h

/-- Settles O50: there is one flag, which the match finds set and the first delivery clears. -/
theorem matchWhilePendingIsAbsorbed : Obligations.MatchWhilePendingIsAbsorbed := by
  intro s d rest hrun hmatch _ hcmie hgie hinsvc hs
  refine ⟨{ s with
    cnt := 0, iflg := 0, insvc := false, invocations := s.invocations + 1, schedule := rest },
    ?_, rfl, cmf_of_iflg_zero _ rfl, rfl⟩
  calc Host.Core.run Sys2Proof.core 4 s
    _ = Host.Core.run Sys2Proof.core 3 { s with
          cnt := 0, iflg := 0x02, schedule := [.deliver, .ret, .deliver] ++ rest } :=
        run_scheduled 3 s _ .tick _ hs (tickTurn_of_match _ d hrun hmatch)
    _ = Host.Core.run Sys2Proof.core 2 { s with
          cnt := 0, iflg := 0, insvc := true, invocations := s.invocations + 1,
          schedule := [.ret, .deliver] ++ rest } :=
        run_scheduled 2 _ _ .deliver _ rfl <| congrArg Host.Outcome.next <|
          deliverInterrupt_of_deliverable _ <|
            (deliverable_iff _).2 ⟨cmf_of_iflg_set _ rfl, hcmie, hgie, hinsvc⟩
    _ = Host.Core.run Sys2Proof.core 1 { s with
          cnt := 0, iflg := 0, insvc := false, invocations := s.invocations + 1,
          schedule := [.deliver] ++ rest } :=
        run_scheduled 1 _ _ .ret _ rfl rfl
    _ = Host.Core.run Sys2Proof.core 0 _ :=
        run_scheduled 0 _ _ .deliver _ rfl <| congrArg Host.Outcome.next <|
          deliverInterrupt_of_not_deliverable _ <|
            (deliverable_eq_false_iff _).2 (.inl (cmf_of_iflg_zero _ rfl))
    _ = _ := run_zero _

/-! ### The order of a tick and M7 -/

/-- The writes of M7 (R97). -/
def completeSequence (s : State) : State :=
  { discardWorking { s with gie := 1 } with armed := true, seq := 0 }

theorem exec_m7_of_seq (s : State) (hq : s.seq = 7) :
    exec .m7 s = .next (completeSequence s) := (exec_m7_eq_next s _).2 ⟨hq, rfl⟩

/-- Settles O52: M7 writes nothing that the tick reads or writes, and the tick nothing that M7 reads
or writes. -/
theorem tickAndM7Commute : Obligations.TickAndM7Commute := by
  intro s d rest hq hp hrun
  obtain ⟨c, f, -, htick⟩ := tickCounter_writes s
  have htickTurn (u : State) (hu : RunsAt u d) (hcnt : u.cnt = s.cnt) (hcmp : u.cmp = s.cmp)
      (hiflg : u.iflg = s.iflg) : runTurn .tick u = .next { u with cnt := c, iflg := f } :=
    (tickTurn_of_runsAt u d hu).trans (congrArg Host.Outcome.next (htick u hcnt hcmp hiflg))
  have hcode : decodeSeq s.seq = .m7 := by rw [hq]; rfl
  refine ⟨completeSequence { s with cnt := c, iflg := f, schedule := rest, port := none }, ?_, ?_⟩
  · calc Host.Core.run Sys2Proof.core 2 { s with schedule := [.tick, .foreground] ++ rest }
      _ = Host.Core.run Sys2Proof.core 1 { s with
            cnt := c, iflg := f, schedule := [.foreground] ++ rest } :=
          run_scheduled 1 _ _ .tick _ rfl (htickTurn _ hrun rfl rfl rfl)
      _ = Host.Core.run Sys2Proof.core 0 _ :=
          run_microstep 0 _ _ rest .m7 rfl hp hcode (exec_m7_of_seq _ hq)
      _ = _ := run_zero _
  · calc Host.Core.run Sys2Proof.core 2 { s with schedule := [.foreground, .tick] ++ rest }
      _ = Host.Core.run Sys2Proof.core 1 (completeSequence { s with
            schedule := [.tick] ++ rest, port := none }) :=
          run_microstep 1 _ _ _ .m7 rfl hp hcode (exec_m7_of_seq _ hq)
      _ = Host.Core.run Sys2Proof.core 0 { completeSequence { s with
            schedule := [.tick] ++ rest, port := none } with
            cnt := c, iflg := f, schedule := rest } :=
          run_scheduled 0 _ _ .tick _ rfl (htickTurn _ hrun rfl rfl rfl)
      _ = _ := run_zero _

end Sys2Proof.Machine
end

section
/-! Reset (spec 70_reset_and_hazards.md R150): what it leaves, why no turn but a command's does anything then, and
why no other step leads to Disarmed. -/

namespace Sys2Proof.Machine

/-- Before a command no agent has anything to do: no word on the port, no micro-step due, the counter
stopped, no delivery enabled and no callback running. -/
structure Quiescent (s : State) : Prop where
  port : s.port = none
  seq : s.seq = 0
  cs : s.cs = 0
  deliverable : s.deliverable = false
  insvc : s.insvc = false

theorem clearPort_of_empty_port (s : State) (h : s.port = none) : clearPort s = s := by
  rw [clearPort, ← h]

/-- With no word on the port and `SEQ = 0` the foreground executes IDLE. -/
theorem foregroundTurn_of_idle (s : State) (hp : s.port = none) (hq : s.seq = 0) :
    foregroundTurn s = .next s := by
  have hfetch : decode (fetch s) = .ok .idle := by
    simp only [fetch, hp, hq]; rfl
  rw [foregroundTurn, hfetch]
  exact (exec_idle_eq_next _ _).2 ⟨hq, (clearPort_of_empty_port s hp).symm⟩

/-- Only the outside world, by a command or by reset, moves a quiescent machine. -/
theorem Quiescent.runTurn {s : State} (h : Quiescent s) (x : Turn) (hw : ∀ w, x ≠ .present w)
    (hr : x ≠ .reset) : runTurn x s = .next s := by
  cases x with
  | foreground => exact foregroundTurn_of_idle s h.port h.seq
  | present w => exact absurd rfl (hw w)
  | tick => exact tickTurn_of_stopped s h.cs
  | cycle => exact cycleTurn_of_stopped s h.cs
  | deliver =>
    exact congrArg Host.Outcome.next (deliverInterrupt_of_not_deliverable s h.deliverable)
  | ret => exact congrArg Host.Outcome.next (returnFromInterrupt_of_not_insvc s h.insvc)
  | reset => exact absurd rfl hr

theorem resetEvent_quiescent (s : State) : Quiescent (resetEvent s) where
  port := rfl
  seq := rfl
  cs := rfl
  deliverable := deliverable_of_gie_zero _ rfl
  insvc := rfl

theorem resetEvent_phase (s : State) : (resetEvent s).phase = .disarmed :=
  (phase_eq_disarmed _).2 ⟨by simp, by simp⟩

/-- A foreground turn from M2 on is a micro-step, as no command is accepted there: M2 to M6 stay in
Configuring and M7 arms. -/
theorem foreground_step_phase (s t : State) (hq : 2 ≤ s.seq.toNat) (hn : nextTurn s = .foreground)
    (h : step s = .next t) : t.phase = .configuring ∨ t.phase = .armed := by
  rcases foreground_step_cases s t hn h with ⟨_, ⟨hready, _⟩, _⟩ | ⟨_, hm⟩
  · exact absurd hready (seq_ne_zero_of_le (by decide) hq)
  · rcases hm with ⟨h0, _⟩ | ⟨h1, _⟩ | ⟨_, rfl⟩ | ⟨_, rfl⟩ | ⟨_, rfl⟩ | ⟨_, rfl⟩ | ⟨_, rfl⟩ |
      ⟨_, rfl⟩
    · simp [h0] at hq
    · simp [h1] at hq
    case inr.inr.inr.inr.inr.inr.inr => exact .inr ((phase_eq_armed _).2 ⟨rfl, rfl⟩)
    all_goals exact .inl ((phase_eq_configuring _).2 (by simp))

/-- Configuring goes on, or ends in Armed, as long as the machine is not reset. -/
theorem phase_step_of_configuring (s t : State) (hp : s.phase = .configuring)
    (hr : nextTurn s ≠ .reset) (h : step s = .next t) :
    t.phase = .configuring ∨ t.phase = .armed := by
  have hq : 2 ≤ s.seq.toNat := (phase_eq_configuring s).1 hp
  by_cases hn : nextTurn s = .foreground
  · exact foreground_step_phase s t hq hn h
  · obtain ⟨hseq, -⟩ := hardware_step_frame s t hn hr h
    exact .inl ((phase_eq_configuring t).2 (hseq ▸ hq))

/-- Settles O57: the state reset leaves is quiescent, and neither Configuring nor Armed leads to
Disarmed by another step. -/
theorem resetEventReturnsToDisarmed : Obligations.ResetEventReturnsToDisarmed := by
  refine ⟨fun s hn => ?_, fun s t h hp hd => ?_⟩
  · have hquiet : Quiescent (resetEvent (dropTurn s)) := resetEvent_quiescent _
    refine ⟨_, step_of_nextTurn hn, rfl, rfl, rfl, rfl, rfl, rfl, rfl, rfl, rfl, rfl,
      resetEvent_phase _, hquiet.deliverable, hquiet.cs, cmf_of_iflg_zero _ rfl, rfl, rfl,
      fun x hw hr u hu => ?_⟩
    exact (Host.Outcome.next.inj ((hquiet.runTurn x hw hr).symm.trans hu)).symm
  · by_contra hr
    have hmoves : t.phase = .configuring ∨ t.phase = .armed := by
      cases hs : s.phase with
      | disarmed => exact absurd hs hp
      | configuring => exact phase_step_of_configuring s t hs hr h
      | armed =>
        obtain ⟨-, -, hstay, -⟩ := lifeCycleLeavesArmedOnlyByReset
        exact .inr (hstay s t h hs hr)
    simp [hd] at hmoves

end Sys2Proof.Machine
end
